-- ==== Sys2Proof/Word.lean ====
section
/-! DEFINITION. The unsigned fixed-width values of the core (00_scope.md R8, R11, R12): a model takes the widths
as constants. Bit 0 is the least significant bit of every value. -/

namespace Sys2Proof

/-- BYTE_W = 8 (R8). -/
abbrev Byte := BitVec 8

/-- WORD_W = 16 (R8). -/
abbrev Word := BitVec 16

/-- BLOCK_W = 64 (R8). -/
abbrev Block := BitVec 64

/-- The 80 bits of port P3 `key_in` (10_state.md R29). -/
abbrev KeyBits := BitVec 80

/-- The 2-bit command field `cmd[1:0]` (30_encoding.md R70). -/
abbrev Cmd := BitVec 2

/-- The 2-bit round select `SEL` (30_encoding.md R72). -/
abbrev Sel := BitVec 2

end Sys2Proof
end

