-- ==== Sys2Proof/Syntax.lean ====
section
/-! DEFINITION. The syntax: the 13 rows of the opcode table as `Instr` (30_encoding.md R77), the encoded form
`InstrWord`, and the statements a host makes (30_encoding.md R80). -/

namespace Sys2Proof

/-- The CipherState: four working words, `w1` most significant (00_scope.md section 5, 10_state.md R20). -/
@[ext] structure Words where
  w1 : Word
  w2 : Word
  w3 : Word
  w4 : Word
deriving DecidableEq, Repr

/-- The key register file's contents `key[0..9]` (10_state.md R23). -/
abbrev Key := Vector Byte 10

/-- KEY_BYTES (00_scope.md R8). -/
abbrev keyBytes : Nat := 10

/-- N_ROUNDS (00_scope.md R8). -/
abbrev nRounds : Nat := 32

/-- How ENC or DEC is used. The table's row "ENC (encryptBlock)" has two levels (43_block_drivers.md sections 1 and 2). -/
inductive DriverForm where
  /-- The host command: the operands are the ports `block_in` and `key_in` of this tick (R131). -/
  | ports
  /-- The function `encryptBlock` or `decryptBlock`: a key is a byte sequence of any length (R123, R124). -/
  | call (block : Block) (key : List Byte)
deriving DecidableEq, Repr

/-- How a round rule is used (42_round_rules.md, opening paragraph). -/
inductive RoundForm where
  /-- The round tick: `r` is RND, the key is K, the words are W (43_block_drivers.md R133). -/
  | engine
  /-- The pure function of a round number, a key and four words (00_scope.md R16). -/
  | call (r : Nat) (key : Key) (st : Words)
deriving DecidableEq, Repr

/-- One constructor per row of opcode_table.json (30_encoding.md R77). -/
inductive Instr where
  /-- NOP, `cmd = 00` (R132). -/
  | nop
  /-- ENC, `cmd = 01` (R131, R123). -/
  | enc (form : DriverForm)
  /-- DEC, `cmd = 10` (R131, R124). -/
  | dec (form : DriverForm)
  /-- RESERVED, `cmd = 11` (R152). -/
  | reserved
  /-- ROUND_A, `SEL = 00` (R110). -/
  | roundA (form : RoundForm)
  /-- ROUND_B, `SEL = 01` (R111). -/
  | roundB (form : RoundForm)
  /-- ROUND_AINV, `SEL = 10` (R112). -/
  | roundAinv (form : RoundForm)
  /-- ROUND_BINV, `SEL = 11` (R113). -/
  | roundBinv (form : RoundForm)
  /-- F, `FN = 0x0` (R90). -/
  | f (x : Byte)
  /-- G, `FN = 0x1` (R100). -/
  | g (r : Nat) (key : Key) (w : Word)
  /-- GINV, `FN = 0x2` (R103). -/
  | ginv (r : Nat) (key : Key) (w : Word)
  /-- SPLIT, `FN = 0x3` (R120). -/
  | split (b : Block)
  /-- JOIN, `FN = 0x4` (R121). -/
  | join (st : Words)
deriving DecidableEq, Repr

/-- The column "format" of opcode_table.json: the spec's three encodings (30_encoding.md, opening paragraph). -/
inductive Format where
  | cmd
  | roundSelect
  | datapath
deriving DecidableEq, Repr

/-- An encoded instruction: its format, its code in one byte (OP in bits 1:0, SEL in bits 1:0, or FN in bits 3:0;
the bits above are 0) and the operand bytes of a function-level call. The operand bytes are the model's own notation
for a call (DESIGN CHOICE, log 5); a form that runs inside a tick has none (30_encoding.md R70). -/
structure InstrWord where
  format : Format
  code : Byte
  operands : List Byte
deriving DecidableEq, Repr

/-- Why a decoder rejects a word. -/
inductive DecodeError where
  /-- A command code above 2 bits (30_encoding.md R70). -/
  | noCommand (code : Byte)
  /-- A round select above 2 bits (30_encoding.md R72). -/
  | noRound (code : Byte)
  /-- A label that no function carries (30_encoding.md R76, R78). -/
  | noFunction (code : Byte)
  /-- The row exists and takes another number of operand bytes (log 5). -/
  | operandCount (n : Nat)
deriving DecidableEq, Repr

/-- The input ports P0 to P3, as the host presents them at one tick (10_state.md R29). -/
structure PortIn where
  rst : Bool
  cmd : Cmd
  blockIn : Block
  keyIn : KeyBits
deriving DecidableEq, Repr

/-- The host-visible registers (10_state.md R32). -/
inductive HostReg where
  | cmd
  | blockIn
  | keyIn
  | blockOut
  | status
deriving DecidableEq, Repr

/-- One statement of a host (30_encoding.md R80; log 3 and log 12). -/
inductive HostStmt where
  /-- One tick with these port values: RESET, NOP, ENC b,k, DEC b,k or CMD3. -/
  | tick (p : PortIn)
  /-- A read of a host-visible register: READ x reads BLOCK_OUT, STAT s reads STATUS. No tick. -/
  | read (reg : HostReg)
  /-- A function-level call, encoded (30_encoding.md R76, R81; 43_block_drivers.md section 1). No tick. -/
  | call (w : InstrWord)
deriving DecidableEq, Repr

end Sys2Proof
end

