-- ==== Sys2Proof/WellFormed.lean ====
section
/-! DEFINITION. Which instructions are well formed: a round number in its domain (41_g_permutation.md R106) and a
key of ten bytes (60_exceptions.md R151). -/

namespace Sys2Proof

/-- The domain of a round number, [1,32] (00_scope.md R8, 41_g_permutation.md R106). -/
abbrev RoundInRange (r : Nat) : Prop := 1 ≤ r ∧ r ≤ nRounds

/-- A driver call needs a key of exactly ten bytes (R151); the port form is exactly 80 bits wide. -/
def DriverForm.wellFormed : DriverForm → Bool
  | .ports => true
  | .call _ key => decide (key.length = keyBytes)

/-- A rule call needs a round number in [1,32] (R106). -/
def RoundForm.wellFormed : RoundForm → Bool
  | .engine => true
  | .call r _ _ => decide (RoundInRange r)

/-- The checks of an instruction. -/
def Instr.wellFormed : Instr → Bool
  | .nop => true
  | .enc form => form.wellFormed
  | .dec form => form.wellFormed
  | .reserved => true
  | .roundA form => form.wellFormed
  | .roundB form => form.wellFormed
  | .roundAinv form => form.wellFormed
  | .roundBinv form => form.wellFormed
  | .f _ => true
  | .g r _ _ => decide (RoundInRange r)
  | .ginv r _ _ => decide (RoundInRange r)
  | .split _ => true
  | .join _ => true

/-- `i` passes every check. -/
abbrev Instr.WellFormed (i : Instr) : Prop := i.wellFormed = true

end Sys2Proof
end

