-- ==== Sys2Proof/Machine/Operands.lean ====
section
/-! DEFINITION. Operand assembly: bytes within a word, words within a block, key bytes within `key_in`
(20_memory.md R53 to R56), the round constant (30_encoding.md R74) and the key indices (41_g_permutation.md R101, R104). -/

namespace Sys2Proof.Machine

/-- The high byte `w[15:8]` (20_memory.md R53). -/
def hiByte (w : Word) : Byte := w.extractLsb' 8 8

/-- The low byte `w[7:0]` (20_memory.md R53). -/
def loByte (w : Word) : Byte := w.extractLsb' 0 8

/-- `(hi << 8) | lo` (20_memory.md R53). -/
def wordOf (hi lo : Byte) : Word := hi ++ lo

/-- `splitBlock`: `(b[63:48], b[47:32], b[31:16], b[15:0])` (43_block_drivers.md R120). -/
def splitBlock (b : Block) : Words where
  w1 := b.extractLsb' 48 16
  w2 := b.extractLsb' 32 16
  w3 := b.extractLsb' 16 16
  w4 := b.extractLsb' 0 16

/-- `joinBlock`: `w1 ++ w2 ++ w3 ++ w4` (43_block_drivers.md R121). -/
def joinBlock (st : Words) : Block := st.w1 ++ st.w2 ++ st.w3 ++ st.w4

/-- `K[i] = key_in[79-8i : 72-8i]` (20_memory.md R56). -/
def keyOfPort (k : KeyBits) : Key := Vector.ofFn fun i => k.extractLsb' (72 - 8 * i.val) 8

/-- The ten bytes of a byte sequence, in index order; used only where the sequence has ten (R151). -/
def keyOfList (l : List Byte) : Key := Vector.ofFn fun i => l.getD i.val 0

/-- A key read `K[j]`, "Indexed cyclically (modulo 10)" (20_memory.md R52). -/
def keyByte (key : Key) (j : Nat) : Byte := key[j % 10]'(Nat.mod_lt j (by decide))

/-- `zext_16(r)` (30_encoding.md R74). -/
def roundConst (r : Nat) : Word := BitVec.ofNat 16 r

/-- `jG(r) = (4 * (r - 1)) mod 10` (41_g_permutation.md R101). -/
def jG (r : Nat) : Nat := 4 * (r - 1) % 10

/-- `(j + 1) mod 10` (41_g_permutation.md R100). -/
def jUp (j : Nat) : Nat := (j + 1) % 10

/-- `jGinv(r) = (4 * (r - 1) + 3) mod 10` (41_g_permutation.md R104). -/
def jGinv (r : Nat) : Nat := (4 * (r - 1) + 3) % 10

/-- `(j - 1) mod 10`, the residue in [0,9] also at `j = 0` (00_scope.md R13, 41_g_permutation.md R103). -/
def jDown (j : Nat) : Nat := (j + 9) % 10

/-- A block as bytes `p[0..7]`, `p[0]` the high byte of W1 (20_memory.md R55). -/
def bytesOfWords (st : Words) : List Byte :=
  [hiByte st.w1, loByte st.w1, hiByte st.w2, loByte st.w2, hiByte st.w3, loByte st.w3, hiByte st.w4, loByte st.w4]

/-- Eight bytes as four words, in the order of 20_memory.md R55. -/
def wordsOfBytes (l : List Byte) : Words where
  w1 := wordOf (l.getD 0 0) (l.getD 1 0)
  w2 := wordOf (l.getD 2 0) (l.getD 3 0)
  w3 := wordOf (l.getD 4 0) (l.getD 5 0)
  w4 := wordOf (l.getD 6 0) (l.getD 7 0)

end Sys2Proof.Machine
end

