-- ==== Sys2Proof/Machine/State.lean ====
section
/-! DEFINITION. The state as plain data (10_state.md R38), the reasons a step stops, and the state after reset
(10_state.md R36). -/

namespace Sys2Proof.Machine

/-- PHASE, 2 bits (10_state.md R26). -/
inductive Phase where
  /-- 00: no result held; a command may start. -/
  | idle
  /-- 01: an operation is in flight. -/
  | run
  /-- 10: the operation has finished. -/
  | done
  /-- 11: no rule produces it; a state that holds it is stuck (R26). -/
  | unassigned
deriving DecidableEq, Repr

/-- The error taxonomy (60_exceptions.md R150). -/
inductive ErrorCause where
  /-- A key sequence of length `n`, not 10, at the function level (R151). -/
  | invalidKeyLength (n : Nat)
  /-- `cmd = 11` (R152). -/
  | illegalCommand
  /-- `cmd` 01 or 10 in RUN (R153). -/
  | commandWhileBusy
deriving DecidableEq, Repr

/-- The architectural state of one engine instance (10_state.md R38). -/
@[ext] structure Engine where
  /-- W1..W4 (R20). -/
  w : Words
  /-- K[0..9] (R23). -/
  k : Key
  /-- RND, 6 bits (R24). -/
  rnd : BitVec 6
  /-- DIR: false is 0 (encrypt), true is 1 (decrypt) (R25). -/
  dir : Bool
  /-- PHASE (R26). -/
  phase : Phase
  /-- ERR_ILL, sticky (R28). -/
  errIll : Bool
  /-- ERR_BUSY, sticky (R28). -/
  errBusy : Bool
deriving DecidableEq, Repr

/-- The engine after reset (10_state.md R36): PHASE = IDLE and both error bits 0. The spec gives W, K, RND and DIR no
value; the model's values are DESIGN CHOICEs (log 1): zeros, and RND = 1 since R24 says that 0 never occurs. -/
def Engine.reset : Engine where
  w := ⟨0, 0, 0, 0⟩
  k := #v[0, 0, 0, 0, 0, 0, 0, 0, 0, 0]
  rnd := 1
  dir := false
  phase := .idle
  errIll := false
  errBusy := false

/-- What a function-level evaluation returns (43_block_drivers.md section 1, 41_g_permutation.md, 42_round_rules.md). -/
inductive Value where
  | byte (v : Byte)
  | word (v : Word)
  | words (v : Words)
  | block (v : Block)
deriving DecidableEq, Repr

/-- One thing the host has obtained (30_encoding.md R80: the host variables; log 12). -/
inductive Observation where
  /-- READ x: a read of BLOCK_OUT. -/
  | blockOut (b : Block)
  /-- STAT s: a read of STATUS. -/
  | status (v : BitVec 8)
  /-- The result of a function-level call. -/
  | returned (v : Value)
deriving DecidableEq, Repr

/-- MODEL'S OWN: where the free values of `block_out` come from (10_state.md R31; log 4). No meaning reads it but to draw a
free value, so no rule sees it (60_exceptions.md R162: instances have no identifiers visible to themselves). -/
structure FreeReads where
  /-- Which source: each engine instance has its own. -/
  source : Nat
  /-- How many free values reads of `block_out` have drawn from it. -/
  count : Nat
deriving DecidableEq, Repr

/-- The state: one engine, its input ports, and the host's side. -/
@[ext]
structure State where
  /-- The engine (10_state.md R38). -/
  engine : Engine
  /-- P0 to P3, the values presented at the current tick (10_state.md R29). -/
  ports : PortIn
  /-- MODEL'S OWN: the statements the host has still to make, the next first (log 3). -/
  host : List HostStmt
  /-- MODEL'S OWN: what the host has obtained, the latest first (log 12). -/
  log : List Observation
  /-- MODEL'S OWN: the source and the number of the next free value of `block_out` (log 4). -/
  freeReads : FreeReads
  /-- MODEL'S OWN, as 60_exceptions.md R157 asks of a model: the fault marks of the hardware errors, the latest first. No
  tick clears one, a reset tick neither (92_eei_decisions.md D11; log 8). -/
  faultMarks : List ErrorCause
deriving DecidableEq, Repr

/-- The machine right after reset (10_state.md R36). The host presents no command, and its fields hold the values that
log 2, log 3, log 4 and log 8 name. -/
def State.reset : State where
  engine := Engine.reset
  ports := ⟨false, 0, 0, 0⟩
  host := []
  log := []
  freeReads := ⟨0, 0⟩
  faultMarks := []

/-- Why the machine stops with a fault. -/
inductive Fault where
  /-- Raised by ENC and DEC as functions, on a key of length `n` other than 10, before any round: the spec's own fault
  (60_exceptions.md R151, 93 U1). Safe. -/
  | invalidKeyLength (n : Nat)
  /-- Raised by a tick or a host read in a state with PHASE = 11, which is stuck (10_state.md R26, 93 U5). Safe. -/
  | stuckPhase
deriving DecidableEq, Repr

/-- Why a statement or an instruction is refused. -/
inductive Refusal where
  /-- An instruction without a meaning yet, by its mnemonic; raised only by `exec`'s own arms. Safe. -/
  | notModelled (mnemonic : String)
  /-- Raised by G, Ginv and the four rules on a round number outside [1,32], which has no meaning (41_g_permutation.md
  R106, 93 U6). Safe. -/
  | roundOutOfRange (r : Nat)
  /-- Raised by the round-tick form of a round rule in a state whose PHASE or SEL does not select that rule: the state
  chooses the row (30_encoding.md R72, R77), and no tick runs it there (log 7). Safe. -/
  | roundNotSelected
  /-- Raised by a host call whose word the decoder rejects (30_encoding.md R78). Safe. -/
  | undecodable (e : DecodeError)
  /-- Raised by a host call of a form that only a tick runs (30_encoding.md R77; log 7). Safe. -/
  | notCallable
  /-- Raised by a host read of a register whose access right is write (10_state.md R32). Safe. -/
  | registerNotReadable (reg : HostReg)
deriving DecidableEq, Repr

/-- The outcome of a step of this machine. -/
abbrev Result := Host.Outcome State Fault Refusal

end Sys2Proof.Machine
end

