-- ==== Sys2Proof/Machine/Flags.lean ====
section
/-! DEFINITION. The codes of PHASE and of the errors, the status outputs, STATUS, the round select and the host-visible registers (10_state.md R29 to R32,
30_encoding.md R72). The core has no condition flags: no rule writes one. -/

namespace Sys2Proof.Machine

/-- The 2-bit code of a phase (10_state.md R26). -/
def Phase.code : Phase → BitVec 2
  | .idle => 0b00
  | .run => 0b01
  | .done => 0b10
  | .unassigned => 0b11

/-- The spec's cause codes, which no port carries (60_exceptions.md R150). -/
def ErrorCause.code : ErrorCause → Nat
  | .invalidKeyLength _ => 1
  | .illegalCommand => 2
  | .commandWhileBusy => 3

/-- The hardware error that a command raises at a tick without reset, by the pre-tick phase; one tick raises at most one
(60_exceptions.md R150, R155). -/
def commandError? (phase : Phase) (c : Cmd) : Option ErrorCause :=
  if c = 0b11 then some .illegalCommand
  else if c ≠ 0b00 ∧ phase = .run then some .commandWhileBusy
  else none

/-- P5 `busy` (10_state.md R29). -/
def Engine.busy (e : Engine) : Bool := decide (e.phase = .run)

/-- P6 `done` (10_state.md R29). -/
def Engine.done (e : Engine) : Bool := decide (e.phase = .done)

/-- STATUS: bit 0 BUSY, bit 1 DONE, bit 2 ERR_ILL, bit 3 ERR_BUSY, bits 7:4 hardwired 0 (10_state.md R30). -/
def Engine.status (e : Engine) : BitVec 8 :=
  0#4 ++ BitVec.ofBool e.errBusy ++ BitVec.ofBool e.errIll ++ BitVec.ofBool e.done ++ BitVec.ofBool e.busy

/-- `SEL = DIR ++ (RND - 1)[3]`, the subtraction in 6 bits (30_encoding.md R72). -/
def Engine.sel (e : Engine) : Sel := BitVec.ofBool e.dir ++ (e.rnd - 1).extractLsb' 3 1

/-- P4 `block_out` where the spec gives it a value: in DONE (10_state.md R31). -/
def Engine.blockOut? (e : Engine) : Option Block :=
  match e.phase with
  | .done => some (joinBlock e.w)
  | .idle => none
  | .run => none
  | .unassigned => none

/-- The access rights (10_state.md R32). -/
inductive Access where
  | write
  | readOnly
deriving DecidableEq, Repr

/-- The column "#" of 10_state.md R32. -/
def regNumber : HostReg → Nat
  | .cmd => 0
  | .blockIn => 1
  | .keyIn => 2
  | .blockOut => 3
  | .status => 4

/-- The column "width" of 10_state.md R32. -/
def regWidth : HostReg → Nat
  | .cmd => 2
  | .blockIn => 64
  | .keyIn => 80
  | .blockOut => 64
  | .status => 8

/-- The column "access" of 10_state.md R32. -/
def regAccess : HostReg → Access
  | .cmd => .write
  | .blockIn => .write
  | .keyIn => .write
  | .blockOut => .readOnly
  | .status => .readOnly

end Sys2Proof.Machine
end

