-- ==== Sys2Proof/Config.lean ====
section
/-! DEFINITION. What an implementation fixes (10_state.md R38 `configuration`) and the free values of the model. The
reference configuration, with the F-box values of 40_fbox.md R91, is in Machine/FBox.lean. -/

namespace Sys2Proof

/-- The contents of an F-box ROM, one byte for each address (00_scope.md R9, 20_memory.md R51). -/
abbrev FTable := Byte → Byte

/-- The parameters of 00_scope.md R9 and R10 and of 20_memory.md R60. -/
structure Config where
  /-- The F-box ROM's contents (R9, 10_state.md R33). -/
  FTABLE : FTable
  /-- The number of engine instances (R10). -/
  N_INSTANCES : Nat
  /-- The parameter's bound, `N_INSTANCES >= 1` (R10, 93 U10): no configuration has fewer. -/
  oneOrMore : 1 ≤ N_INSTANCES
  /-- The platform's placement of the ports, read by no rule (20_memory.md R60). -/
  PLATFORM_BASE : Nat

/-- A named property of FTABLE, a hypothesis of the claims that need it: no two inputs map to the same output and every output occurs (40_fbox.md R92). -/
def Config.FTableBijective (c : Config) : Prop := Function.Bijective c.FTABLE

/-- FREE VALUE: what the `n`-th read of `block_out` outside DONE gives, by its source and `n` (10_state.md R31: "a free
value, chosen independently at each read, and no claim may depend on it"; log 4). Two engine instances have two sources, so
nothing relates their free values. -/
opaque Config.freeBlockOut (source n : Nat) : Block

/-- FREE VALUE: the platform's base address, `OPEN` in 20_memory.md R60 and used by no rule (log 11). -/
opaque Config.platformBase : Nat

end Sys2Proof
end

