-- ==== Sys2Proof/Machine/FBox.lean ====
section
/-! DEFINITION. The F-box S-table ROM (40_fbox.md): the published table, the reference configuration that holds it, and the
lookup in any table. The table is a parameter of every function of the datapath (00_scope.md R9). -/

namespace Sys2Proof.Machine

/-- The sixteen rows 0x, 1x, ..., Fx of the table of 40_fbox.md R91, each with its columns x0..xF from the most
significant byte to the least. PRESUMED (log 9): the spec marks the values "from general knowledge, not in source". -/
def fTableRows : List (BitVec 128) :=
  [0xa3d70983f848f6f4b321157899b1aff9,
   0xe72d4d8ace4cca2e5295d91e4e384428,
   0x0adf02a017f1606812b77ac3e9fa3d53,
   0x96846bbaf2639a197caee5f5f7166aa2,
   0x39b67b0fc193811beeb41aead0912fb8,
   0x55b9da853f41bfe05a58805f660bd890,
   0x35d5c0a733066569450094566d989b76,
   0x97fcb2c2b0fedb20e1ebd6e4dd474a1d] ++
  [0x42ed9e6e493ccd4327d207d4dec76718,
   0x89cb301f8dc68faac874dcc95d5c31a4,
   0x7088612c9f0d2b8750825464267d0340,
   0x344b1c73d1c4fd3bccfb7fabe63e5ba5,
   0xad04239c145122f02979717eff8c0ee2,
   0x0cefbc72756f37a1ecd38e628b8610e8,
   0x087711be924f24c532369dcff3a6bbac,
   0x5e6ca9135725b5e3bda83a0105592a46]

/-- `FTABLE[x]` for `x = 16*hi + lo` (40_fbox.md R91). -/
def fTable (x : Byte) : Byte :=
  (fTableRows.getD (x.extractLsb' 4 4).toNat 0).extractLsb' (8 * (15 - (x.extractLsb' 0 4).toNat)) 8

/-- The reference configuration: the table of R91, one instance (00_scope.md R9, R10), an open platform base. -/
def referenceConfig : Config where
  FTABLE := fTable
  N_INSTANCES := 1
  oneOrMore := Nat.le_refl 1
  PLATFORM_BASE := Config.platformBase

end Sys2Proof.Machine

namespace Sys2Proof

/-- The other named property of FTABLE, a hypothesis of the claims that need it: it is the published table (00_scope.md R9,
40_fbox.md R91). PRESUMED of the hardware (log 9). -/
def Config.FTablePublished (c : Config) : Prop := c.FTABLE = Machine.fTable

end Sys2Proof

namespace Sys2Proof.Machine

/-- `FRead(x)`: the only memory read of the core; every address is valid and no read has a side effect
(20_memory.md R51, 00_scope.md R14). -/
def fRead (F : FTable) (x : Byte) : Byte := F x

/-- `F(x)` (40_fbox.md R90). -/
def fBox (F : FTable) (x : Byte) : Byte := fRead F x

end Sys2Proof.Machine
end

