-- ==== Sys2Proof/Machine/Permutation.lean ====
section
/-! DEFINITION. The functions G and Ginv (41_g_permutation.md R100 to R104). -/

namespace Sys2Proof.Machine

/-- One sub-step: `F(a XOR key[j]) XOR b`, 8-bit XORs (41_g_permutation.md R100, R103; 90_conflicts.md C2, C5). -/
def gStep (F : FTable) (key : Key) (j : Nat) (a b : Byte) : Byte := fBox F (a ^^^ keyByte key j) ^^^ b

/-- `G(r, key, w)`, the steps i = 2, 3, 4, 5 (41_g_permutation.md R100). -/
def g (F : FTable) (r : Nat) (key : Key) (w : Word) : Word :=
  let g0 := hiByte w
  let g1 := loByte w
  let j2 := jG r
  let g2 := gStep F key j2 g1 g0
  let j3 := jUp j2
  let g3 := gStep F key j3 g2 g1
  let j4 := jUp j3
  let g4 := gStep F key j4 g3 g2
  let j5 := jUp j4
  let g5 := gStep F key j5 g4 g3
  wordOf g4 g5

/-- `Ginv(r, key, w)`, the steps i = 3, 2, 1, 0 (41_g_permutation.md R103; 90_conflicts.md C1: the index goes down). -/
def gInv (F : FTable) (r : Nat) (key : Key) (w : Word) : Word :=
  let g4 := hiByte w
  let g5 := loByte w
  let j3 := jGinv r
  let g3 := gStep F key j3 g4 g5
  let j2 := jDown j3
  let g2 := gStep F key j2 g3 g4
  let j1 := jDown j2
  let g1 := gStep F key j1 g2 g3
  let j0 := jDown j1
  let g0 := gStep F key j0 g1 g2
  wordOf g0 g1

end Sys2Proof.Machine
end

