-- ==== Sys2Proof/Machine/Rules.lean ====
section
/-! DEFINITION. The four round rules as pure functions (42_round_rules.md R110 to R113), the round schedule and the
32-round drivers (43_block_drivers.md R123 to R126). Each rule builds the four post-round words from pre-round values
only (00_scope.md R15, 70_reset_and_hazards.md R174). -/

namespace Sys2Proof.Machine

/-- Rule A (42_round_rules.md R110). -/
def ruleA (F : FTable) (r : Nat) (key : Key) (old : Words) : Words :=
  let t := g F r key old.w1
  { w1 := t ^^^ old.w4 ^^^ roundConst r, w2 := t, w3 := old.w2, w4 := old.w3 }

/-- Rule B (42_round_rules.md R111). -/
def ruleB (F : FTable) (r : Nat) (key : Key) (old : Words) : Words :=
  { w1 := old.w4, w2 := g F r key old.w1, w3 := old.w1 ^^^ old.w2 ^^^ roundConst r, w4 := old.w3 }

/-- Rule Ainv (42_round_rules.md R112). -/
def ruleAinv (F : FTable) (r : Nat) (key : Key) (old : Words) : Words :=
  { w1 := gInv F r key old.w2, w2 := old.w3, w3 := old.w4, w4 := old.w1 ^^^ old.w2 ^^^ roundConst r }

/-- Rule Binv (42_round_rules.md R113). -/
def ruleBinv (F : FTable) (r : Nat) (key : Key) (old : Words) : Words :=
  let u := gInv F r key old.w2
  { w1 := u, w2 := u ^^^ old.w3 ^^^ roundConst r, w3 := old.w4, w4 := old.w1 }

/-- `isA(r) := (1 <= r <= 8) or (17 <= r <= 24)` (43_block_drivers.md R126; 90_conflicts.md C3). -/
def isA (r : Nat) : Bool := (decide (1 ≤ r) && decide (r ≤ 8)) || (decide (17 ≤ r) && decide (r ≤ 24))

/-- Round `r` of an encryption (43_block_drivers.md R123). -/
def encryptRound (F : FTable) (r : Nat) (key : Key) (st : Words) : Words :=
  if isA r then ruleA F r key st else ruleB F r key st

/-- Round `r` of a decryption (43_block_drivers.md R124). -/
def decryptRound (F : FTable) (r : Nat) (key : Key) (st : Words) : Words :=
  if isA r then ruleAinv F r key st else ruleBinv F r key st

/-- The rounds 1, 2, ..., n in this order (43_block_drivers.md R123). -/
def encryptRounds (F : FTable) (key : Key) : Nat → Words → Words
  | 0, st => st
  | n + 1, st => encryptRound F (n + 1) key (encryptRounds F key n st)

/-- The rounds n, n-1, ..., 1 in this order (43_block_drivers.md R124). -/
def decryptRounds (F : FTable) (key : Key) : Nat → Words → Words
  | 0, st => st
  | n + 1, st => decryptRounds F key n (decryptRound F (n + 1) key st)

/-- All of `encryptBlock` after its key-length check (43_block_drivers.md R123). -/
def encryptWith (F : FTable) (b : Block) (key : Key) : Block := joinBlock (encryptRounds F key nRounds (splitBlock b))

/-- All of `decryptBlock` after its key-length check (43_block_drivers.md R124). -/
def decryptWith (F : FTable) (b : Block) (key : Key) : Block := joinBlock (decryptRounds F key nRounds (splitBlock b))

/-- A driver fails fast on a key of another length, before any round (60_exceptions.md R151; 90_conflicts.md C6). -/
def checkKey (key : List Byte) : Except ErrorCause Key :=
  if key.length = keyBytes then .ok (keyOfList key) else .error (.invalidKeyLength key.length)

/-- `encryptBlock(block, key)` (43_block_drivers.md R123). -/
def encryptBlock (F : FTable) (b : Block) (key : List Byte) : Except ErrorCause Block := (checkKey key).map (encryptWith F b)

/-- `decryptBlock(block, key)` (43_block_drivers.md R124). -/
def decryptBlock (F : FTable) (b : Block) (key : List Byte) : Except ErrorCause Block := (checkKey key).map (decryptWith F b)

end Sys2Proof.Machine
end

