-- ==== Sys2Proof/Machine/Ops.lean ====
section
/-! DEFINITION. The operations the meanings share: recording an error, the accept step, the round tick, reset, and
what the host obtains. -/

namespace Sys2Proof.Machine

/-- `s` with another engine. -/
def State.withEngine (s : State) (e : Engine) : State := { s with engine := e }

/-- `s` with other port values (10_state.md R29). -/
def State.withPorts (s : State) (p : PortIn) : State := { s with ports := p }

/-- `s` with another list of host statements (log 3). -/
def State.withHost (s : State) (h : List HostStmt) : State := { s with host := h }

/-- The host obtains `o` (30_encoding.md R80; log 12). -/
def State.observe (s : State) (o : Observation) : State := { s with log := o :: s.log }

/-- One free value more has been drawn (log 4). -/
def State.countFreeRead (s : State) : State :=
  { s with freeReads := { s.freeReads with count := s.freeReads.count + 1 } }

/-- `s` with other fault marks (60_exceptions.md R157). -/
def State.withMarks (s : State) (m : List ErrorCause) : State := { s with faultMarks := m }

/-- The fault mark of one error, beside those there are (60_exceptions.md R157). -/
def State.recordFault (s : State) (c : ErrorCause) : State := s.withMarks (c :: s.faultMarks)

/-- The next free value of `block_out` (10_state.md R31; log 4). -/
def State.freeBlockOut (s : State) : Block := Config.freeBlockOut s.freeReads.source s.freeReads.count

/-- A function-level evaluation gives its caller `v`; no register of the engine is read or written (00_scope.md R16,
43_block_drivers.md R125). -/
def returnValue (v : Value) (s : State) : Result := .next (s.observe (.returned v))

/-- `raise <Error>(info)` (00_scope.md R14): the one way an error is taken. There is no trap, no saved state, no handler
and no return (60_exceptions.md R156, R157): a hardware error sets its own sticky bit and nothing else of the engine (R152,
R153), and the model records its fault mark (R157); the function-level error is a fault that carries the length (R151). -/
def raise (c : ErrorCause) (s : State) : Result :=
  match c with
  | .invalidKeyLength n => .fault (.invalidKeyLength n)
  | .illegalCommand => .next ((s.withEngine { s.engine with errIll := true }).recordFault .illegalCommand)
  | .commandWhileBusy => .next ((s.withEngine { s.engine with errBusy := true }).recordFault .commandWhileBusy)

/-- The reset state of the engine at a tick with `rst = 1` (70_reset_and_hazards.md R170; log 1). The fault marks stay
(60_exceptions.md R157: "no later tick clears"). -/
def resetEngine (s : State) : State := s.withEngine Engine.reset

/-- The accept step (43_block_drivers.md R131): samples the ports, writes W, K, DIR, RND and PHASE, and leaves the error
bits. `dir` is true for DEC. -/
def accept (dir : Bool) (s : State) : State :=
  s.withEngine
    { s.engine with
      w := splitBlock s.ports.blockIn
      k := keyOfPort s.ports.keyIn
      dir := dir
      rnd := if dir then 32 else 1
      phase := .run }

/-- A start command, by the pre-tick phase (43_block_drivers.md R130): accepted in IDLE and DONE, discarded with
CommandWhileBusy in RUN (60_exceptions.md R153). PHASE = 11 is stuck (10_state.md R26). -/
def startCommand (dir : Bool) (s : State) : Result :=
  match s.engine.phase with
  | .idle => .next (accept dir s)
  | .done => .next (accept dir s)
  | .run => raise .commandWhileBusy s
  | .unassigned => .fault .stuckPhase

/-- RND and PHASE after a round (43_block_drivers.md R133): the last round leaves RND and makes PHASE DONE. -/
def sequenceRound (e : Engine) : Engine :=
  if e.dir then
    if e.rnd = 1 then { e with phase := .done } else { e with rnd := e.rnd - 1 }
  else
    if e.rnd = 32 then { e with phase := .done } else { e with rnd := e.rnd + 1 }

/-- The round tick with the rule that `sel` selects (43_block_drivers.md R133). The state must select it: PHASE = RUN and
SEL = `sel` (30_encoding.md R72; log 7). RND outside [1,32] never occurs (10_state.md R24) and is refused (R106). -/
def roundTick (sel : Sel) (rule : Nat → Key → Words → Words) (s : State) : Result :=
  match s.engine.phase with
  | .idle => .refused .roundNotSelected
  | .done => .refused .roundNotSelected
  | .unassigned => .fault .stuckPhase
  | .run =>
    if RoundInRange s.engine.rnd.toNat then
      if s.engine.sel = sel then
        .next (s.withEngine
          (sequenceRound { s.engine with w := rule s.engine.rnd.toNat s.engine.k s.engine.w }))
      else .refused .roundNotSelected
    else .refused (.roundOutOfRange s.engine.rnd.toNat)

/-- A function-level evaluation at round number `r`, refused outside [1,32] (41_g_permutation.md R106). -/
def inRound (r : Nat) (v : Value) (s : State) : Result :=
  if RoundInRange r then returnValue v s else .refused (.roundOutOfRange r)

/-- A round rule in either of its forms. -/
def roundRule (sel : Sel) (rule : Nat → Key → Words → Words) (form : RoundForm) (s : State) : Result :=
  match form with
  | .engine => roundTick sel rule s
  | .call r key st => inRound r (.words (rule r key st)) s

/-- A driver called as a function: its block, or its error raised (43_block_drivers.md R123, R124). -/
def returnDriver (v : Except ErrorCause Block) (s : State) : Result :=
  match v with
  | .ok b => returnValue (.block b) s
  | .error c => raise c s

/-- A read of BLOCK_OUT: the result in DONE, a free value in IDLE and RUN (10_state.md R31; log 4). -/
def readBlockOut (s : State) : Result :=
  match s.engine.phase with
  | .done => .next (s.observe (.blockOut (joinBlock s.engine.w)))
  | .idle => .next (s.observe (.blockOut s.freeBlockOut)).countFreeRead
  | .run => .next (s.observe (.blockOut s.freeBlockOut)).countFreeRead
  | .unassigned => .fault .stuckPhase

/-- A read of STATUS, without side effect (10_state.md R30). -/
def readStatus (s : State) : Result :=
  match s.engine.phase with
  | .done => .next (s.observe (.status s.engine.status))
  | .idle => .next (s.observe (.status s.engine.status))
  | .run => .next (s.observe (.status s.engine.status))
  | .unassigned => .fault .stuckPhase

/-- A host read, by the register's access right (10_state.md R32). -/
def readReg (reg : HostReg) (s : State) : Result :=
  match reg with
  | .blockOut => readBlockOut s
  | .status => readStatus s
  | .cmd => .refused (.registerNotReadable .cmd)
  | .blockIn => .refused (.registerNotReadable .blockIn)
  | .keyIn => .refused (.registerNotReadable .keyIn)

/-- Go on with `k` where `o` answers a next state. -/
def andThen (o : Result) (k : State → Result) : Result :=
  match o with
  | .next s => k s
  | .fault r => .fault r
  | .refused r => .refused r

end Sys2Proof.Machine
end

