-- ==== Sys2Proof/Machine/Command.lean ====
section
/-! DEFINITION. The meanings of the four `cmd` rows: the command decode of one tick (43_block_drivers.md R130). The round
tick that a tick in RUN also makes is the round-select row's (R129, R133), added by `tick` in Machine/Tick.lean. -/

namespace Sys2Proof.Machine

/-- NOP: no change from command decode (43_block_drivers.md R132). -/
def execNop (s : State) : Result :=
  match s.engine.phase with
  | .idle => .next s
  | .run => .next s
  | .done => .next s
  | .unassigned => .fault .stuckPhase

/-- ENC with a configuration: the start command with DIR = 0 (43_block_drivers.md R131), and `encryptBlock` as a function
(R123). -/
def execEncOf (c : Config) (form : DriverForm) (s : State) : Result :=
  match form with
  | .ports => startCommand false s
  | .call b key => returnDriver (encryptBlock c.FTABLE b key) s

/-- ENC of the reference configuration. -/
def execEnc (form : DriverForm) (s : State) : Result := execEncOf referenceConfig form s

/-- DEC with a configuration: the start command with DIR = 1 (43_block_drivers.md R131), and `decryptBlock` as a function
(R124). -/
def execDecOf (c : Config) (form : DriverForm) (s : State) : Result :=
  match form with
  | .ports => startCommand true s
  | .call b key => returnDriver (decryptBlock c.FTABLE b key) s

/-- DEC of the reference configuration. -/
def execDec (form : DriverForm) (s : State) : Result := execDecOf referenceConfig form s

/-- RESERVED: raises IllegalCommand, whatever the phase (60_exceptions.md R152). -/
def execReserved (s : State) : Result :=
  match s.engine.phase with
  | .idle => raise .illegalCommand s
  | .run => raise .illegalCommand s
  | .done => raise .illegalCommand s
  | .unassigned => .fault .stuckPhase

end Sys2Proof.Machine
end

