-- ==== Sys2Proof/Machine/Datapath.lean ====
section
/-! DEFINITION. The meanings of the five datapath rows (30_encoding.md R76). Each is a pure function of its arguments
(00_scope.md R16): its result goes to the caller and no register changes (log 5). -/

namespace Sys2Proof.Machine

/-- F with a configuration (40_fbox.md R90). -/
def execFOf (c : Config) (x : Byte) (s : State) : Result := returnValue (.byte (fBox c.FTABLE x)) s

/-- F of the reference configuration. -/
def execF (x : Byte) (s : State) : Result := execFOf referenceConfig x s

/-- G with a configuration (41_g_permutation.md R100, R106). -/
def execGOf (c : Config) (r : Nat) (key : Key) (w : Word) (s : State) : Result :=
  inRound r (.word (g c.FTABLE r key w)) s

/-- G of the reference configuration. -/
def execG (r : Nat) (key : Key) (w : Word) (s : State) : Result := execGOf referenceConfig r key w s

/-- GINV with a configuration (41_g_permutation.md R103, R106). -/
def execGinvOf (c : Config) (r : Nat) (key : Key) (w : Word) (s : State) : Result :=
  inRound r (.word (gInv c.FTABLE r key w)) s

/-- GINV of the reference configuration. -/
def execGinv (r : Nat) (key : Key) (w : Word) (s : State) : Result := execGinvOf referenceConfig r key w s

/-- SPLIT (43_block_drivers.md R120). -/
def execSplit (b : Block) (s : State) : Result := returnValue (.words (splitBlock b)) s

/-- JOIN (43_block_drivers.md R121). -/
def execJoin (st : Words) (s : State) : Result := returnValue (.block (joinBlock st)) s

end Sys2Proof.Machine
end

