-- ==== Sys2Proof/Machine/Rounds.lean ====
section
/-! DEFINITION. The meanings of the four round-select rows (30_encoding.md R72): the round tick of 43_block_drivers.md
R133 with the row's rule, and the rule as a function (42_round_rules.md). -/

namespace Sys2Proof.Machine

/-- ROUND_A with a configuration (42_round_rules.md R110). -/
def execRoundAOf (c : Config) (form : RoundForm) (s : State) : Result :=
  roundRule 0b00 (ruleA c.FTABLE) form s

/-- ROUND_A of the reference configuration. -/
def execRoundA (form : RoundForm) (s : State) : Result := execRoundAOf referenceConfig form s

/-- ROUND_B with a configuration (42_round_rules.md R111). -/
def execRoundBOf (c : Config) (form : RoundForm) (s : State) : Result :=
  roundRule 0b01 (ruleB c.FTABLE) form s

/-- ROUND_B of the reference configuration. -/
def execRoundB (form : RoundForm) (s : State) : Result := execRoundBOf referenceConfig form s

/-- ROUND_AINV with a configuration (42_round_rules.md R112). -/
def execRoundAinvOf (c : Config) (form : RoundForm) (s : State) : Result :=
  roundRule 0b10 (ruleAinv c.FTABLE) form s

/-- ROUND_AINV of the reference configuration. -/
def execRoundAinv (form : RoundForm) (s : State) : Result := execRoundAinvOf referenceConfig form s

/-- ROUND_BINV with a configuration (42_round_rules.md R113). -/
def execRoundBinvOf (c : Config) (form : RoundForm) (s : State) : Result :=
  roundRule 0b11 (ruleBinv c.FTABLE) form s

/-- ROUND_BINV of the reference configuration. -/
def execRoundBinv (form : RoundForm) (s : State) : Result := execRoundBinvOf referenceConfig form s

end Sys2Proof.Machine
end

