-- ==== Sys2Proof/Machine/Configured.lean ====
section
/-! DEFINITION. The instructions of an engine with any configuration (00_scope.md R9: FTABLE is a parameter). `exec` of
Machine/Dispatch.lean is the reference configuration's. -/

namespace Sys2Proof.Machine

/-- What an engine with configuration `c` makes of each row of opcode_table.json (30_encoding.md R77). NOP, RESERVED, SPLIT
and JOIN read no configuration. -/
def execOf (c : Config) (i : Instr) (s : State) : Result :=
  match i with
  | .nop => execNop s
  | .enc form => execEncOf c form s
  | .dec form => execDecOf c form s
  | .reserved => execReserved s
  | .roundA form => execRoundAOf c form s
  | .roundB form => execRoundBOf c form s
  | .roundAinv form => execRoundAinvOf c form s
  | .roundBinv form => execRoundBinvOf c form s
  | .f x => execFOf c x s
  | .g r key w => execGOf c r key w s
  | .ginv r key w => execGinvOf c r key w s
  | .split b => execSplit b s
  | .join st => execJoin st s

end Sys2Proof.Machine
end

