-- ==== Sys2Proof/Decode.lean ====
section
/-! DEFINITION. Decoding, total on every word and rejecting by name, and the encoder, from the tables of
30_encoding.md (R71, R72, R76, R77). The operand bytes of a function-level call are laid out in the byte orders of
20_memory.md R53, R55 and R56: the round number (one byte), the key bytes, then the word or the block (log 5). -/

namespace Sys2Proof

/-- The function-level forms: everything a caller evaluates without a tick of the engine. The other forms happen
inside a tick (30_encoding.md R77: the host issues only the `cmd` rows, and the state chooses a round row). -/
def Instr.isCall : Instr → Bool
  | .nop => false
  | .enc form => match form with | .ports => false | .call _ _ => true
  | .dec form => match form with | .ports => false | .call _ _ => true
  | .reserved => false
  | .roundA form => match form with | .engine => false | .call _ _ _ => true
  | .roundB form => match form with | .engine => false | .call _ _ _ => true
  | .roundAinv form => match form with | .engine => false | .call _ _ _ => true
  | .roundBinv form => match form with | .engine => false | .call _ _ _ => true
  | .f _ => true
  | .g _ _ _ => true
  | .ginv _ _ _ => true
  | .split _ => true
  | .join _ => true

/-- The operand of ENC or DEC: none for the port form; a block and then a key of any length for a call. -/
def decodeDriverForm (ops : List Byte) : Except DecodeError DriverForm :=
  match ops with
  | [] => .ok .ports
  | _ :: _ =>
    if 8 ≤ ops.length then .ok (.call (Machine.joinBlock (Machine.wordsOfBytes ops)) (ops.drop 8))
    else .error (.operandCount ops.length)

/-- The operand of a round rule: none for the round tick; a round number, a key and four words for a call. -/
def decodeRoundForm (ops : List Byte) : Except DecodeError RoundForm :=
  match ops with
  | [] => .ok .engine
  | r :: rest =>
    if rest.length = 18 then .ok (.call r.toNat (Machine.keyOfList rest) (Machine.wordsOfBytes (rest.drop 10)))
    else .error (.operandCount ops.length)

/-- A row without operand bytes. -/
def decodeNone (i : Instr) (ops : List Byte) : Except DecodeError Instr :=
  match ops with
  | [] => .ok i
  | _ :: _ => .error (.operandCount ops.length)

/-- The command codes (30_encoding.md R71). -/
def decodeCmd (code : Byte) (ops : List Byte) : Except DecodeError Instr :=
  if code = 0 then decodeNone .nop ops
  else if code = 1 then (decodeDriverForm ops).map .enc
  else if code = 2 then (decodeDriverForm ops).map .dec
  else if code = 3 then decodeNone .reserved ops
  else .error (.noCommand code)

/-- The round select (30_encoding.md R72). -/
def decodeRound (code : Byte) (ops : List Byte) : Except DecodeError Instr :=
  if code = 0 then (decodeRoundForm ops).map .roundA
  else if code = 1 then (decodeRoundForm ops).map .roundB
  else if code = 2 then (decodeRoundForm ops).map .roundAinv
  else if code = 3 then (decodeRoundForm ops).map .roundBinv
  else .error (.noRound code)

/-- The operands of G or Ginv: a round number, a key and a word. -/
def decodeKeyed (mk : Nat → Key → Word → Instr) (ops : List Byte) : Except DecodeError Instr :=
  match ops with
  | [] => .error (.operandCount 0)
  | r :: rest =>
    if rest.length = 12 then
      .ok (mk r.toNat (Machine.keyOfList rest) (Machine.wordOf (rest.getD 10 0) (rest.getD 11 0)))
    else .error (.operandCount ops.length)

/-- The datapath labels (30_encoding.md R76); the labels 0x5..0xF carry no function and are rejected (R78). -/
def decodeDatapath (code : Byte) (ops : List Byte) : Except DecodeError Instr :=
  if code = 0 then
    match ops with
    | [x] => .ok (.f x)
    | _ => .error (.operandCount ops.length)
  else if code = 1 then decodeKeyed .g ops
  else if code = 2 then decodeKeyed .ginv ops
  else if code = 3 then
    if ops.length = 8 then .ok (.split (Machine.joinBlock (Machine.wordsOfBytes ops)))
    else .error (.operandCount ops.length)
  else if code = 4 then
    if ops.length = 8 then .ok (.join (Machine.wordsOfBytes ops)) else .error (.operandCount ops.length)
  else .error (.noFunction code)

/-- The decoder. -/
def decode (w : InstrWord) : Except DecodeError Instr :=
  match w.format with
  | .cmd => decodeCmd w.code w.operands
  | .roundSelect => decodeRound w.code w.operands
  | .datapath => decodeDatapath w.code w.operands

/-- The word on port `cmd` (30_encoding.md R70): the code alone, no operand bytes. -/
def cmdWord (c : Cmd) : InstrWord := ⟨.cmd, c.zeroExtend 8, []⟩

/-- The round-select word of a round tick (30_encoding.md R72). -/
def selWord (s : Sel) : InstrWord := ⟨.roundSelect, s.zeroExtend 8, []⟩

/-- The operand bytes of a driver form. -/
def encodeDriverForm : DriverForm → List Byte
  | .ports => []
  | .call b key => Machine.bytesOfWords (Machine.splitBlock b) ++ key

/-- The operand bytes of a round form. -/
def encodeRoundForm : RoundForm → List Byte
  | .engine => []
  | .call r key st => BitVec.ofNat 8 r :: (key.toList ++ Machine.bytesOfWords st)

/-- The operand bytes of G and Ginv. -/
def encodeKeyed (r : Nat) (key : Key) (w : Word) : List Byte :=
  BitVec.ofNat 8 r :: (key.toList ++ [Machine.hiByte w, Machine.loByte w])

/-- The encoder, from the same tables (30_encoding.md R71, R72, R76). -/
def encode : Instr → InstrWord
  | .nop => ⟨.cmd, 0x0, []⟩
  | .enc form => ⟨.cmd, 0x1, encodeDriverForm form⟩
  | .dec form => ⟨.cmd, 0x2, encodeDriverForm form⟩
  | .reserved => ⟨.cmd, 0x3, []⟩
  | .roundA form => ⟨.roundSelect, 0x0, encodeRoundForm form⟩
  | .roundB form => ⟨.roundSelect, 0x1, encodeRoundForm form⟩
  | .roundAinv form => ⟨.roundSelect, 0x2, encodeRoundForm form⟩
  | .roundBinv form => ⟨.roundSelect, 0x3, encodeRoundForm form⟩
  | .f x => ⟨.datapath, 0x0, [x]⟩
  | .g r key w => ⟨.datapath, 0x1, encodeKeyed r key w⟩
  | .ginv r key w => ⟨.datapath, 0x2, encodeKeyed r key w⟩
  | .split b => ⟨.datapath, 0x3, Machine.bytesOfWords (Machine.splitBlock b)⟩
  | .join st => ⟨.datapath, 0x4, Machine.bytesOfWords st⟩

/-- The word whose table bits are `w`. The rows of the three formats share their bits and `w` names no format, so the
format that a host can issue comes first (30_encoding.md R77): a value below 4 is a command, a value from 4 on a
datapath label, with operand bytes of zeros (log 6). -/
def tableWord (w : Nat) : InstrWord :=
  if w < 4 then ⟨.cmd, BitVec.ofNat 8 w, []⟩ else ⟨.datapath, BitVec.ofNat 8 w, List.replicate 8 0⟩

/-- What the decoder reads from an instruction whose bits are `w` (log 6). -/
def decodeTableWord (nbits w : Nat) : Option Instr :=
  if w < 2 ^ nbits ∧ w < 2 ^ 8 then
    match decode (tableWord w) with
    | .ok i => some i
    | .error _ => none
  else none

end Sys2Proof
end

