-- ==== Sys2Proof/Machine/Dispatch.lean ====
section
/-! DEFINITION. The dispatch: one arm per row of opcode_table.json (30_encoding.md R77). -/

namespace Sys2Proof.Machine

def exec (i : Instr) (s : State) : Host.Outcome State Fault Refusal :=
  match i with
  | .nop => Sys2Proof.Machine.execNop s
  | .enc form => Sys2Proof.Machine.execEnc form s
  | .dec form => Sys2Proof.Machine.execDec form s
  | .reserved => Sys2Proof.Machine.execReserved s
  | .roundA form => Sys2Proof.Machine.execRoundA form s
  | .roundB form => Sys2Proof.Machine.execRoundB form s
  | .roundAinv form => Sys2Proof.Machine.execRoundAinv form s
  | .roundBinv form => Sys2Proof.Machine.execRoundBinv form s
  | .f x => Sys2Proof.Machine.execF x s
  | .g r key w => Sys2Proof.Machine.execG r key w s
  | .ginv r key w => Sys2Proof.Machine.execGinv r key w s
  | .split b => Sys2Proof.Machine.execSplit b s
  | .join st => Sys2Proof.Machine.execJoin st s

end Sys2Proof.Machine
end

