-- ==== Sys2Proof/Machine/Tick.lean ====
section
/-! DEFINITION. One tick of the engine (43_block_drivers.md R129) and one statement of the host (30_encoding.md R80). Each takes
the meaning of the instructions, `run`: `exec` for the reference configuration, `execOf c` for another (00_scope.md R9). -/

namespace Sys2Proof.Machine

/-- Decode a word and run its instruction; a word that the decoder rejects is refused (30_encoding.md R78). -/
def execWord (run : Instr → State → Result) (w : InstrWord) (s : State) : Result :=
  match decode w with
  | .ok i => run i s
  | .error e => .refused (.undecodable e)

/-- The tick (43_block_drivers.md R129; priority 60_exceptions.md R155), with the ports already presented: `rst`
overrides everything; otherwise the command decode, and the round tick where the PRE-tick phase is RUN. In RUN the command
decode writes an error bit at most (R130), so running it before the round tick is the spec's parallel update (DEDUCED,
log 8). -/
def tick (run : Instr → State → Result) (s : State) : Result :=
  if s.ports.rst then .next (resetEngine s)
  else
    andThen (execWord run (cmdWord s.ports.cmd) s) fun s' =>
      match s.engine.phase with
      | .run => execWord run (selWord s.engine.sel) s'
      | .idle => .next s'
      | .done => .next s'
      | .unassigned => .next s'

/-- A function-level call; a form that only a tick runs is not the host's to call (30_encoding.md R77; log 7). -/
def call (run : Instr → State → Result) (w : InstrWord) (s : State) : Result :=
  match decode w with
  | .ok i => if i.isCall then run i s else .refused .notCallable
  | .error e => .refused (.undecodable e)

/-- What the ports hold when the host has no statement left: no reset and no command, the data ports as they were
(DESIGN CHOICE, log 3; 70_reset_and_hazards.md R176: a host presents 00 otherwise). -/
def idlePorts (p : PortIn) : PortIn := { p with rst := false, cmd := 0 }

/-- The host's next statement. -/
def hostStep (run : Instr → State → Result) (s : State) : Result :=
  match s.host with
  | [] => tick run (s.withPorts (idlePorts s.ports))
  | .tick p :: rest => tick run ((s.withHost rest).withPorts p)
  | .read reg :: rest => readReg reg (s.withHost rest)
  | .call w :: rest => call run w (s.withHost rest)

/-- The statement that presents or calls the instruction whose table bits are `w` (log 6). -/
def stmtOfTableWord (p : PortIn) (w : Nat) : HostStmt :=
  if w < 4 then .tick { p with rst := false, cmd := BitVec.ofNat 2 w }
  else if w < 2 ^ 8 then .call (tableWord w)
  else .call ⟨.datapath, 0xFF, []⟩

end Sys2Proof.Machine
end

