-- ==== Sys2Proof/Machine/Step.lean ====
section
/-! DEFINITION. The step, and how the host places an instruction where the next step takes it. -/

namespace Sys2Proof.Machine

/-- One step of an engine with the reference configuration: the host's next statement (a tick, a read or a call; log 3). -/
def step (s : State) : Host.Outcome State Fault Refusal := hostStep exec s

/-- One step of an engine with configuration `c` (00_scope.md R9). -/
def stepOf (c : Config) (s : State) : Host.Outcome State Fault Refusal := hostStep (execOf c) s

/-- `s` with the instruction of table bits `w` as the host's next statement, before the ones it still has (log 3, log 6). -/
def State.withFetchWord (s : State) (nbits w : Nat) : State :=
  s.withHost (stmtOfTableWord s.ports (w % 2 ^ nbits) :: s.host)

end Sys2Proof.Machine
end

