-- ==== Sys2Proof/Machine/Instances.lean ====
section
/-! DEFINITION. Several engine instances (00_scope.md R10, 20_memory.md R62, 60_exceptions.md R162): each has a state of
its own, with its own ports and its own host; they share only the constant F-box ROM, which is in Config (log 10). -/

namespace Sys2Proof.Machine

/-- What each instance has come to: its state, or the fault or refusal that one of its own statements ended in. The order of
the list has no meaning for any instance (60_exceptions.md R162: no start order). -/
abbrev System := List Result

/-- Instance `k` right after its own reset (60_exceptions.md R162), with a source of free values of its own (log 4). -/
def instanceReset (k : Nat) : State := { State.reset with freeReads := ⟨k, 0⟩ }

/-- Every instance of a configuration right after its own reset; there is at least one (00_scope.md R10). -/
def systemReset (c : Config) : System := (List.range c.N_INSTANCES).map fun k => .next (instanceReset k)

/-- The reference configuration's system (00_scope.md R10). -/
def referenceSystem : System := systemReset referenceConfig

/-- Instance `k` takes a step, with the one table that all of them share (20_memory.md R62); a number that no instance has
takes none. DESIGN CHOICE (log 10): where an instance's own statement faults or is refused (a driver call with a nine-byte
key, 60_exceptions.md R151), that instance stays where it stopped and the others go on. The spec speaks of the instances'
ticks only, and gives each the results of running alone (20_memory.md R62). -/
def systemStep (c : Config) (k : Nat) (sys : System) : System := sys.modify k fun o => andThen o (stepOf c)

/-- The instances step in the order of `schedule`: any interleaving (20_memory.md R62). One instance's stop ends no other's
run (DESIGN CHOICE, log 10). -/
def systemRun (c : Config) (schedule : List Nat) (sys : System) : System :=
  match schedule with
  | [] => sys
  | k :: ks => systemRun c ks (systemStep c k sys)

end Sys2Proof.Machine
end

