-- ==== Sys2Proof/Safety.lean ====
section
/-! DEFINITION. What a safe run is: the legal states of an engine (10_state.md R24, R26, 43_block_drivers.md R133), runs,
and the premise "no error recorded" (60_exceptions.md R157). -/

namespace Sys2Proof.Machine

/-- A legal engine: PHASE is not 11 (10_state.md R26), RND is in [1,32] (R24), and in DONE the last round has left RND at 32
after an encryption and at 1 after a decryption (43_block_drivers.md R133). -/
structure Engine.Legal (e : Engine) : Prop where
  phase : e.phase ≠ .unassigned
  rnd : RoundInRange e.rnd.toNat
  held : e.phase = .done → e.rnd = if e.dir then 1 else 32

/-- The invariant of a state: its engine is legal. The host's side is unconstrained. -/
abbrev State.Inv (s : State) : Prop := s.engine.Legal

/-- No error is recorded: the premise of a claim about a run (60_exceptions.md R157). It speaks of the fault marks, which no
tick clears, and not of the sticky bits, which a reset tick clears. -/
abbrev State.NoErrorRecorded (s : State) : Prop := s.faultMarks = []

/-- Each sticky bit that is set has its fault mark (60_exceptions.md R152, R153, R157). -/
structure State.BitsMarked (s : State) : Prop where
  ill : s.engine.errIll = true → .illegalCommand ∈ s.faultMarks
  busy : s.engine.errBusy = true → .commandWhileBusy ∈ s.faultMarks

/-- `n` times `one`, stopping at the first fault or refusal. -/
def iterate (one : State → Result) : Nat → State → Result
  | 0, s => .next s
  | n + 1, s => andThen (one s) (iterate one n)

/-- `n` steps of an engine with the reference configuration. -/
abbrev steps (n : Nat) (s : State) : Result := iterate step n s

/-- `n` steps of an engine with configuration `c` (00_scope.md R9). -/
abbrev stepsOf (c : Config) (n : Nat) (s : State) : Result := iterate (stepOf c) n s

/-- The ticks of a host that presents these port values one after another. -/
def tickStmts (ps : List PortIn) : List HostStmt := ps.map .tick

/-- No tick of the list is a reset. -/
abbrev NoReset (ps : List PortIn) : Prop := ∀ p ∈ ps, p.rst = false

/-- The next statement of `s` is a tick with `rst = 1`. -/
def State.nextIsReset (s : State) : Bool :=
  match s.host with
  | .tick p :: _ => p.rst
  | .read _ :: _ => false
  | .call _ :: _ => false
  | [] => false

/-- The port values of the next step, where it is a tick: the next statement's, or the idle values with no statement left. -/
def State.nextPorts? (s : State) : Option PortIn :=
  match s.host with
  | .tick p :: _ => some p
  | .read _ :: _ => none
  | .call _ :: _ => none
  | [] => some (idlePorts s.ports)

/-- The error that the next step records, where it is a tick without reset whose command raises one (60_exceptions.md
R150, R155). -/
def State.nextError? (s : State) : Option ErrorCause :=
  match s.nextPorts? with
  | some p => if p.rst then none else commandError? s.engine.phase p.cmd
  | none => none

end Sys2Proof.Machine
end

