-- ==== Sys2Proof/Certificates/Slice0/Obligations.lean ====
section
/-! DEFINITION. The statements for the provers. Each docstring names the rule of spec/ that it formalises. -/

open Sys2Proof Sys2Proof.Machine

/-! ### Encoding -/

/-- Words written out from the tables of 30_encoding.md (R71, R72, R76), one per row of the opcode table. -/
def Obligations.SpecWordsDecode : Prop :=
  decode ⟨.cmd, 0b00000000, []⟩ = .ok .nop ∧
  decode ⟨.cmd, 0b00000001, []⟩ = .ok (.enc .ports) ∧
  decode ⟨.cmd, 0b00000010, []⟩ = .ok (.dec .ports) ∧
  decode ⟨.cmd, 0b00000011, []⟩ = .ok .reserved ∧
  decode ⟨.roundSelect, 0b00000000, []⟩ = .ok (.roundA .engine) ∧
  decode ⟨.roundSelect, 0b00000001, []⟩ = .ok (.roundB .engine) ∧
  decode ⟨.roundSelect, 0b00000010, []⟩ = .ok (.roundAinv .engine) ∧
  decode ⟨.roundSelect, 0b00000011, []⟩ = .ok (.roundBinv .engine) ∧
  decode ⟨.datapath, 0b00000000, [0x2c]⟩ = .ok (.f 0x2c) ∧
  decode ⟨.datapath, 0b00000001, [1, 0x00, 0x99, 0x88, 0x77, 0x66, 0x55, 0x44, 0x33, 0x22, 0x11, 0x33, 0x22]⟩ =
    .ok (.g 1 #v[0x00, 0x99, 0x88, 0x77, 0x66, 0x55, 0x44, 0x33, 0x22, 0x11] 0x3322) ∧
  decode ⟨.datapath, 0b00000010, [1, 0x00, 0x99, 0x88, 0x77, 0x66, 0x55, 0x44, 0x33, 0x22, 0x11, 0x0b, 0xaf]⟩ =
    .ok (.ginv 1 #v[0x00, 0x99, 0x88, 0x77, 0x66, 0x55, 0x44, 0x33, 0x22, 0x11] 0x0baf) ∧
  decode ⟨.datapath, 0b00000011, [0x33, 0x22, 0x11, 0x00, 0xdd, 0xcc, 0xbb, 0xaa]⟩ =
    .ok (.split 0x33221100ddccbbaa) ∧
  decode ⟨.datapath, 0b00000100, [0x25, 0x87, 0xca, 0xe2, 0x7a, 0x12, 0xd3, 0x00]⟩ =
    .ok (.join ⟨0x2587, 0xcae2, 0x7a12, 0xd300⟩)

/-- Decoding an encoded well-formed instruction gives it back, with every operand. -/
def Obligations.DecodeAfterEncodeIsIdentity : Prop :=
  ∀ i : Instr, i.WellFormed → decode (encode i) = .ok i

/-- Every word that decodes is the encoding of what it decodes to: each instruction has one word. -/
def Obligations.EncodeAfterDecodeIsIdentity : Prop :=
  ∀ (w : InstrWord) (i : Instr), decode w = .ok i → encode i = w

/-- Codes that no row of the table has are rejected by name (30_encoding.md R78: the labels 0x5..0xF; R70 and R72: OP and
SEL are 2 bits wide). -/
def Obligations.UnassignedCodesAreRejected : Prop :=
  ∀ (c : Byte) (ops : List Byte),
    (5 ≤ c.toNat → decode ⟨.datapath, c, ops⟩ = .error (.noFunction c)) ∧
    (4 ≤ c.toNat → decode ⟨.cmd, c, ops⟩ = .error (.noCommand c)) ∧
    (4 ≤ c.toNat → decode ⟨.roundSelect, c, ops⟩ = .error (.noRound c))

/-- R72 and R73 (the spec's own inferences from R126 and R24): SEL = DIR ++ (RND-1)[3] selects A or Ainv exactly in the rounds 1-8 and 17-24, B or Binv exactly in the
rounds 9-16 and 25-32. -/
def Obligations.RoundSelectFollowsSchedule : Prop :=
  ∀ e : Engine, RoundInRange e.rnd.toNat →
    e.sel = BitVec.ofBool e.dir ++ (e.rnd - 1).extractLsb' 3 1 ∧
    ((e.rnd - 1).getLsbD 3 = false ↔ e.rnd.toNat ∈ Set.Icc 1 8 ∪ Set.Icc 17 24) ∧
    ((e.rnd - 1).getLsbD 3 = true ↔ e.rnd.toNat ∈ Set.Icc 9 16 ∪ Set.Icc 25 32) ∧
    decode (selWord e.sel) = .ok
      (if e.rnd.toNat ∈ List.range' 1 8 ++ List.range' 17 8 then
        (if e.dir then .roundAinv .engine else .roundA .engine)
      else (if e.dir then .roundBinv .engine else .roundB .engine))

/-! ### Steps -/

/-- A step runs the decoded instruction: a tick without reset runs its command, and after it, where the pre-tick PHASE is
RUN, the selected round row; a call runs its function; with no statement left the step is the tick of the idle ports. The
model's choices in it: the command runs before the round row (log 8), a call is a statement of the host (log 5), and an
empty list is an idle tick (log 3). -/
def Obligations.StepRunsTheDecodedInstruction : Prop :=
  ∀ s : State,
    (∀ p rest i, s.host = .tick p :: rest → p.rst = false → decode (cmdWord p.cmd) = .ok i →
      (s.engine.phase ≠ .run → step s = exec i ((s.withHost rest).withPorts p)) ∧
      (∀ j, s.engine.phase = .run → decode (selWord s.engine.sel) = .ok j →
        step s = andThen (exec i ((s.withHost rest).withPorts p)) (exec j))) ∧
    (∀ w rest i, s.host = .call w :: rest → decode w = .ok i → i.isCall = true →
      step s = exec i (s.withHost rest)) ∧
    (s.host = [] → step s = step (s.withHost [.tick (idlePorts s.ports)]))

/-- A table word placed by `withFetchWord` is what the next step runs: a command in a state outside RUN, and a datapath
label (JOIN, the only one whose bits no command has). -/
def Obligations.PlacedWordIsWhatStepRuns : Prop :=
  ∀ (s : State) (w : Nat) (i : Instr), s.engine.phase ≠ .run → decodeTableWord 8 w = some i →
    ∃ p : PortIn, p.rst = false ∧ p.cmd = BitVec.ofNat 2 w ∧ p.blockIn = s.ports.blockIn ∧ p.keyIn = s.ports.keyIn ∧
      (w < 4 → step (s.withFetchWord 8 w) = exec i (s.withPorts p)) ∧
      (4 ≤ w → step (s.withFetchWord 8 w) = exec i s)

/-! ### Reset -/

/-- R36 for the state the spec gives a value: PHASE = IDLE, both error bits 0, the outputs 0, and no defined block_out. -/
def Obligations.ResetControlStateAndOutputs : Prop :=
  State.reset.engine.phase = .idle ∧ State.reset.engine.errIll = false ∧ State.reset.engine.errBusy = false ∧
  State.reset.engine.busy = false ∧ State.reset.engine.done = false ∧ State.reset.engine.status = 0 ∧
  State.reset.engine.blockOut? = none

/-- The invariant holds at reset. RND's reset value, which makes it so, is the model's choice (log 1). -/
def Obligations.ResetStateIsLegal : Prop := State.reset.Inv

/-- A tick with rst = 1 gives the reset engine from any state, PHASE = 11 included, and ignores cmd, block_in and key_in;
nothing of the host's side and no fault mark changes (70_reset_and_hazards.md section 1, 60_exceptions.md section 2). That W, K, RND and DIR
hold the values of `Engine.reset` then is the model's choice (log 1). -/
def Obligations.ResetTickFromAnyState : Prop :=
  ∀ (s : State) (p : PortIn) (rest : List HostStmt), s.host = .tick p :: rest → p.rst = true →
    ∃ t, step s = .next t ∧ t.engine = Engine.reset ∧ t.engine.phase = .idle ∧ t.engine.errIll = false ∧
      t.engine.errBusy = false ∧ t.ports = p ∧ t.host = rest ∧ t.log = s.log ∧ t.freeReads = s.freeReads ∧
      t.faultMarks = s.faultMarks

/-! ### Commands and errors -/

/-- R132: no change from command decode; in IDLE and DONE a NOP tick leaves the engine as it was; in RUN the round tick
still happens. -/
def Obligations.NopChangesNothing : Prop :=
  ∀ s : State, s.engine.phase ≠ .unassigned →
    exec .nop s = .next s ∧
    ∀ p rest, s.host = .tick p :: rest → p.rst = false → p.cmd = 0b00 →
      (s.engine.phase ≠ .run → step s = .next ((s.withHost rest).withPorts p)) ∧
      (∀ j, s.engine.phase = .run → decode (selWord s.engine.sel) = .ok j →
        step s = exec j ((s.withHost rest).withPorts p))

/-- R131: ENC or DEC in IDLE or DONE. Every clause of the pseudocode, and nothing else changes. -/
def Obligations.AcceptStepWritesTheOperation : Prop :=
  ∀ s : State, s.engine.phase = .idle ∨ s.engine.phase = .done → ∀ decrypt : Bool,
    decode (cmdWord (if decrypt then 0b10 else 0b01)) = .ok (if decrypt then .dec .ports else .enc .ports) ∧
    ∃ t, exec (if decrypt then .dec .ports else .enc .ports) s = .next t ∧
      t.engine.w.w1 = s.ports.blockIn.extractLsb' 48 16 ∧ t.engine.w.w2 = s.ports.blockIn.extractLsb' 32 16 ∧
      t.engine.w.w3 = s.ports.blockIn.extractLsb' 16 16 ∧ t.engine.w.w4 = s.ports.blockIn.extractLsb' 0 16 ∧
      (∀ i : Fin 10, t.engine.k.get i = s.ports.keyIn.extractLsb' (72 - 8 * i.val) 8) ∧
      t.engine.dir = decrypt ∧ t.engine.rnd = (if decrypt then 32 else 1) ∧ t.engine.phase = .run ∧
      t.engine.errIll = s.engine.errIll ∧ t.engine.errBusy = s.engine.errBusy ∧
      t.ports = s.ports ∧ t.host = s.host ∧ t.log = s.log ∧ t.freeReads = s.freeReads ∧ t.faultMarks = s.faultMarks

/-- R152: cmd = 11 sets ERR_ILL and changes nothing else: the tick is the NOP tick, plus the bit, in every phase. The model
records the error's fault mark beside it (R157). -/
def Obligations.IllegalCommandSetsOnlyErrIll : Prop :=
  ∀ s : State,
    (s.engine.phase ≠ .unassigned →
      exec .reserved s = .next ((s.withEngine { s.engine with errIll := true }).recordFault .illegalCommand)) ∧
    ∀ p rest, s.host = .tick p :: rest → p.rst = false → p.cmd = 0b11 →
      step s = andThen (step (s.withHost (.tick { p with cmd := 0b00 } :: rest))) fun t =>
        .next (((t.withPorts p).withEngine { t.engine with errIll := true }).recordFault .illegalCommand)

/-- R153: cmd 01 or 10 in RUN sets ERR_BUSY and is discarded: the tick is the NOP tick, plus the bit; block_in and key_in
are not sampled. The model records the error's fault mark beside it (R157). -/
def Obligations.CommandWhileBusySetsOnlyErrBusy : Prop :=
  ∀ s : State, s.engine.phase = .run →
    exec (.enc .ports) s =
      .next ((s.withEngine { s.engine with errBusy := true }).recordFault .commandWhileBusy) ∧
    exec (.dec .ports) s =
      .next ((s.withEngine { s.engine with errBusy := true }).recordFault .commandWhileBusy) ∧
    ∀ p rest, s.host = .tick p :: rest → p.rst = false → p.cmd = 0b01 ∨ p.cmd = 0b10 →
      step s = andThen (step (s.withHost (.tick { p with cmd := 0b00 } :: rest))) fun t =>
        .next (((t.withPorts p).withEngine { t.engine with errBusy := true }).recordFault .commandWhileBusy)

/-- R171: reset is the only event that clears ERR_ILL and ERR_BUSY, and it clears both. -/
def Obligations.OnlyResetClearsErrorBits : Prop :=
  ∀ s t : State, step s = .next t →
    (s.engine.errIll = true → t.engine.errIll = false → s.nextIsReset = true) ∧
    (s.engine.errBusy = true → t.engine.errBusy = false → s.nextIsReset = true) ∧
    (s.nextIsReset = true → t.engine.errIll = false ∧ t.engine.errBusy = false)

/-- R157, with the causes of R150 and at most one of them a tick (R155): a step records exactly the error that its command
raises, and no step clears a fault mark, a reset tick neither. -/
def Obligations.FaultMarksRecordEveryError : Prop :=
  ∀ s t : State, step s = .next t →
    t.faultMarks = s.nextError?.toList ++ s.faultMarks ∧
    (s.nextError? = some .illegalCommand ↔ ∃ p, s.nextPorts? = some p ∧ p.rst = false ∧ p.cmd = 0b11) ∧
    (s.nextError? = some .commandWhileBusy ↔ ∃ p, s.nextPorts? = some p ∧ p.rst = false ∧
      (p.cmd = 0b01 ∨ p.cmd = 0b10) ∧ s.engine.phase = .run) ∧
    (∀ n, s.nextError? ≠ some (.invalidKeyLength n))

/-- R152, R153 and R157: every step keeps a fault mark beside each sticky bit that is set. -/
def Obligations.EveryStepKeepsErrorBitsMarked : Prop :=
  ∀ s t : State, s.BitsMarked → step s = .next t → t.BitsMarked

/-- At reset no error is recorded and no sticky bit is set; the empty list of marks is the model's own field (log 8). -/
def Obligations.ResetStateHasNoErrorRecorded : Prop :=
  State.reset.NoErrorRecorded ∧ State.reset.BitsMarked

/-- R157's premise: a run that ends with no error recorded raised no error at any step and had no sticky bit set at any point,
whatever reset ticks it has. -/
def Obligations.NoErrorRecordedCoversTheWholeRun : Prop :=
  ∀ (n : Nat) (s t : State), s.BitsMarked → steps n s = .next t → t.NoErrorRecorded →
    ∀ m ≤ n, ∃ u, steps m s = .next u ∧ u.NoErrorRecorded ∧ u.engine.errIll = false ∧ u.engine.errBusy = false ∧
      (m < n → u.nextError? = none)

/-- R151: a function-level key of a length other than 10 raises InvalidKeyLength, with the length and no block; the ports
cannot present such a key. -/
def Obligations.WrongKeyLengthFailsFast : Prop :=
  ∀ (s : State) (b : Block) (key : List Byte), key.length ≠ 10 →
    exec (.enc (.call b key)) s = .fault (.invalidKeyLength key.length) ∧
    exec (.dec (.call b key)) s = .fault (.invalidKeyLength key.length) ∧
    (∀ n, exec (.enc .ports) s ≠ .fault (.invalidKeyLength n)) ∧
    (∀ n, exec (.dec .ports) s ≠ .fault (.invalidKeyLength n))

/-! ### The F-box, G and Ginv -/

/-- R90: the lookup completes on every byte with the entry of the configured table, and its label. The rule's corner cases
hold of every configuration whose table is the published one (00_scope.md R9, the named property); the spec derives them from
that table ("by inspection of all 256 entries"; log 9). -/
def Obligations.FBoxLookupAndCornerCases : Prop :=
  (∀ (x : Byte) (s : State), exec (.f x) s = .next (s.observe (.returned (.byte (referenceConfig.FTABLE x))))) ∧
  (∀ (c : Config) (x : Byte) (s : State), execOf c (.f x) s = .next (s.observe (.returned (.byte (c.FTABLE x))))) ∧
  (∀ x : Byte, encode (.f x) = ⟨.datapath, 0x0, [x]⟩) ∧
  ∀ c : Config, c.FTablePublished →
    fBox c.FTABLE 0x00 = 0xa3 ∧ fBox c.FTABLE 0xff = 0x46 ∧ fBox c.FTABLE 0x2c = 0xe9 ∧
    (∀ x : Byte, fBox c.FTABLE x = 0x00 ↔ x = 0x69) ∧ (∀ x : Byte, fBox c.FTABLE x ≠ x)

/-- R91: the table, written out from the rule's flat list. The spec marks the values "from general knowledge, not in
source" (log 9). The reference configuration has the named property that its table is this one (00_scope.md R9). -/
def Obligations.FBoxIsThePublishedTable : Prop :=
  referenceConfig.FTablePublished ∧
  (List.range 256).map (fun x => referenceConfig.FTABLE (BitVec.ofNat 8 x)) =
    [0xa3, 0xd7, 0x09, 0x83, 0xf8, 0x48, 0xf6, 0xf4, 0xb3, 0x21, 0x15, 0x78, 0x99, 0xb1, 0xaf, 0xf9] ++
    [0xe7, 0x2d, 0x4d, 0x8a, 0xce, 0x4c, 0xca, 0x2e, 0x52, 0x95, 0xd9, 0x1e, 0x4e, 0x38, 0x44, 0x28] ++
    [0x0a, 0xdf, 0x02, 0xa0, 0x17, 0xf1, 0x60, 0x68, 0x12, 0xb7, 0x7a, 0xc3, 0xe9, 0xfa, 0x3d, 0x53] ++
    [0x96, 0x84, 0x6b, 0xba, 0xf2, 0x63, 0x9a, 0x19, 0x7c, 0xae, 0xe5, 0xf5, 0xf7, 0x16, 0x6a, 0xa2] ++
    [0x39, 0xb6, 0x7b, 0x0f, 0xc1, 0x93, 0x81, 0x1b, 0xee, 0xb4, 0x1a, 0xea, 0xd0, 0x91, 0x2f, 0xb8] ++
    [0x55, 0xb9, 0xda, 0x85, 0x3f, 0x41, 0xbf, 0xe0, 0x5a, 0x58, 0x80, 0x5f, 0x66, 0x0b, 0xd8, 0x90] ++
    [0x35, 0xd5, 0xc0, 0xa7, 0x33, 0x06, 0x65, 0x69, 0x45, 0x00, 0x94, 0x56, 0x6d, 0x98, 0x9b, 0x76] ++
    [0x97, 0xfc, 0xb2, 0xc2, 0xb0, 0xfe, 0xdb, 0x20, 0xe1, 0xeb, 0xd6, 0xe4, 0xdd, 0x47, 0x4a, 0x1d] ++
    [0x42, 0xed, 0x9e, 0x6e, 0x49, 0x3c, 0xcd, 0x43, 0x27, 0xd2, 0x07, 0xd4, 0xde, 0xc7, 0x67, 0x18] ++
    [0x89, 0xcb, 0x30, 0x1f, 0x8d, 0xc6, 0x8f, 0xaa, 0xc8, 0x74, 0xdc, 0xc9, 0x5d, 0x5c, 0x31, 0xa4] ++
    [0x70, 0x88, 0x61, 0x2c, 0x9f, 0x0d, 0x2b, 0x87, 0x50, 0x82, 0x54, 0x64, 0x26, 0x7d, 0x03, 0x40] ++
    [0x34, 0x4b, 0x1c, 0x73, 0xd1, 0xc4, 0xfd, 0x3b, 0xcc, 0xfb, 0x7f, 0xab, 0xe6, 0x3e, 0x5b, 0xa5] ++
    [0xad, 0x04, 0x23, 0x9c, 0x14, 0x51, 0x22, 0xf0, 0x29, 0x79, 0x71, 0x7e, 0xff, 0x8c, 0x0e, 0xe2] ++
    [0x0c, 0xef, 0xbc, 0x72, 0x75, 0x6f, 0x37, 0xa1, 0xec, 0xd3, 0x8e, 0x62, 0x8b, 0x86, 0x10, 0xe8] ++
    [0x08, 0x77, 0x11, 0xbe, 0x92, 0x4f, 0x24, 0xc5, 0x32, 0x36, 0x9d, 0xcf, 0xf3, 0xa6, 0xbb, 0xac] ++
    [0x5e, 0x6c, 0xa9, 0x13, 0x57, 0x25, 0xb5, 0xe3, 0xbd, 0xa8, 0x3a, 0x01, 0x05, 0x59, 0x2a, 0x46]

/-- R92: in every configuration with the named property, F as an instruction is a bijection on the bytes: no two inputs give
the same outcome and every byte is one. The reference configuration has the property, by the spec's own check ("derived:
checked over all 256 entries"; log 9). -/
def Obligations.FBoxIsABijection : Prop :=
  referenceConfig.FTableBijective ∧
  ∀ c : Config, c.FTableBijective → ∀ s : State,
    (∀ x y : Byte, execOf c (.f x) s = execOf c (.f y) s → x = y) ∧
    (∀ v : Byte, ∃ x : Byte, execOf c (.f x) s = .next (s.observe (.returned (.byte v))))

/-- 00_scope.md R9: FTABLE is a parameter. With any configuration, each row that uses F gives the spec's function of the
configured table, in every state; and every configuration whose table is the published one makes the instructions and the
steps of the machine that the other statements speak of (`exec` and `step`, the reference configuration's). -/
def Obligations.FTableIsAParameter : Prop :=
  (∀ (c : Config) (s : State) (b : Block) (key : List Byte), key.length = 10 →
    (∃ v, encryptBlock c.FTABLE b key = .ok v ∧
      execOf c (.enc (.call b key)) s = .next (s.observe (.returned (.block v)))) ∧
    (∃ v, decryptBlock c.FTABLE b key = .ok v ∧
      execOf c (.dec (.call b key)) s = .next (s.observe (.returned (.block v))))) ∧
  (∀ (c : Config) (s : State) (r : Nat) (k : Key) (w : Word) (st : Words), RoundInRange r →
    execOf c (.g r k w) s = .next (s.observe (.returned (.word (g c.FTABLE r k w)))) ∧
    execOf c (.ginv r k w) s = .next (s.observe (.returned (.word (gInv c.FTABLE r k w)))) ∧
    execOf c (.roundA (.call r k st)) s = .next (s.observe (.returned (.words (ruleA c.FTABLE r k st)))) ∧
    execOf c (.roundB (.call r k st)) s = .next (s.observe (.returned (.words (ruleB c.FTABLE r k st)))) ∧
    execOf c (.roundAinv (.call r k st)) s = .next (s.observe (.returned (.words (ruleAinv c.FTABLE r k st)))) ∧
    execOf c (.roundBinv (.call r k st)) s = .next (s.observe (.returned (.words (ruleBinv c.FTABLE r k st))))) ∧
  (∀ c : Config, c.FTablePublished → (∀ i s, execOf c i s = exec i s) ∧ ∀ s, stepOf c s = step s)

/-- 43_block_drivers.md R133 and R130 with any table (00_scope.md R9): a tick of an engine with configuration `c` differs from
the reference configuration's in the four W at most, which a round tick takes from the configured table. -/
def Obligations.FTableReachesOnlyTheWords : Prop :=
  ∀ (c : Config) (s t : State), step s = .next t → (∃ p, s.nextPorts? = some p) →
    ∃ u, stepOf c s = .next u ∧ u = t.withEngine { t.engine with w := u.engine.w } ∧
      (s.engine.phase = .run → s.nextIsReset = false →
        u.engine.w = (match s.engine.sel with
          | 0b00#2 => ruleA c.FTABLE s.engine.rnd.toNat s.engine.k s.engine.w
          | 0b01#2 => ruleB c.FTABLE s.engine.rnd.toNat s.engine.k s.engine.w
          | 0b10#2 => ruleAinv c.FTABLE s.engine.rnd.toNat s.engine.k s.engine.w
          | _ => ruleBinv c.FTABLE s.engine.rnd.toNat s.engine.k s.engine.w))

/-- R100 and R101: G's four sub-steps with its four key bytes, the result given to the caller and nothing else changed. -/
def Obligations.GComputesFourSubSteps : Prop :=
  ∀ (r : Nat) (key : Key) (w : Word) (s : State),
    let K := fun n : Nat => key.get (Fin.ofNat 10 n)
    let g0 := w.extractLsb' 8 8
    let g1 := w.extractLsb' 0 8
    let g2 := fBox referenceConfig.FTABLE (g1 ^^^ K (4 * (r - 1))) ^^^ g0
    let g3 := fBox referenceConfig.FTABLE (g2 ^^^ K (4 * (r - 1) + 1)) ^^^ g1
    let g4 := fBox referenceConfig.FTABLE (g3 ^^^ K (4 * (r - 1) + 2)) ^^^ g2
    let g5 := fBox referenceConfig.FTABLE (g4 ^^^ K (4 * (r - 1) + 3)) ^^^ g3
    (1 ≤ r ∧ r ≤ 32 → exec (.g r key w) s = .next (s.observe (.returned (.word (g4 ++ g5))))) ∧
    (¬(1 ≤ r ∧ r ≤ 32) → exec (.g r key w) s = .refused (.roundOutOfRange r)) ∧
    (encode (.g r key w)).format = .datapath ∧ (encode (.g r key w)).code = 0x1

/-- R103: Ginv's four sub-steps, from key index 4(r-1)+3 down. -/
def Obligations.GinvComputesFourSubSteps : Prop :=
  ∀ (r : Nat) (key : Key) (w : Word) (s : State),
    let K := fun n : Nat => key.get (Fin.ofNat 10 n)
    let g4 := w.extractLsb' 8 8
    let g5 := w.extractLsb' 0 8
    let g3 := fBox referenceConfig.FTABLE (g4 ^^^ K (4 * (r - 1) + 3)) ^^^ g5
    let g2 := fBox referenceConfig.FTABLE (g3 ^^^ K (4 * (r - 1) + 2)) ^^^ g4
    let g1 := fBox referenceConfig.FTABLE (g2 ^^^ K (4 * (r - 1) + 1)) ^^^ g3
    let g0 := fBox referenceConfig.FTABLE (g1 ^^^ K (4 * (r - 1))) ^^^ g2
    (1 ≤ r ∧ r ≤ 32 → exec (.ginv r key w) s = .next (s.observe (.returned (.word (g0 ++ g1))))) ∧
    (¬(1 ≤ r ∧ r ≤ 32) → exec (.ginv r key w) s = .refused (.roundOutOfRange r)) ∧
    (encode (.ginv r key w)).format = .datapath ∧ (encode (.ginv r key w)).code = 0x2

/-- R104: Ginv starts at (4(r-1)+3) mod 10, steps down mod 10, and its four indices are G's in reverse order (the spec's
own inference: "derived: since jGinv(r) = jG(r) + 3 mod 10"). -/
def Obligations.GinvKeyIndicesReverseThoseOfG : Prop :=
  ∀ r : Nat, RoundInRange r →
    jGinv r = (4 * (r - 1) + 3) % 10 ∧
    [jGinv r, jDown (jGinv r), jDown (jDown (jGinv r)), jDown (jDown (jDown (jGinv r)))] =
      [jG r, jUp (jG r), jUp (jUp (jG r)), jUp (jUp (jUp (jG r)))].reverse ∧
    [jG r, jUp (jG r), jUp (jUp (jG r)), jUp (jUp (jUp (jG r)))] =
      (List.range 4).map fun i => (4 * (r - 1) + i) % 10

/-- R105: Ginv undoes G and G undoes Ginv, with every table (R93: its bijection is not used), for every round, key and
word; the spec derives the second ("derived: from rule R100, rule R101, rule R103 and rule R104"). -/
def Obligations.GAndGinvAreInverse : Prop :=
  ∀ (F : FTable) (r : Nat) (key : Key) (w : Word), RoundInRange r →
    gInv F r key (g F r key w) = w ∧ g F r key (gInv F r key w) = w

/-- R106: outside [1,32] every function that takes a round number is refused; inside it every one completes; and in a
legal engine the round tick is never refused for its round number. -/
def Obligations.RoundNumberDomain : Prop :=
  ∀ (s : State) (key : Key) (w : Word) (st : Words),
    (∀ r, ∀ i ∈ [Instr.g r key w, .ginv r key w, .roundA (.call r key st), .roundB (.call r key st),
        .roundAinv (.call r key st), .roundBinv (.call r key st)],
      (exec i s = .refused (.roundOutOfRange r) ↔ ¬(1 ≤ r ∧ r ≤ 32)) ∧
      (1 ≤ r ∧ r ≤ 32 → ∃ t, exec i s = .next t)) ∧
    (s.Inv → ∀ r, ∀ i ∈ [Instr.roundA .engine, .roundB .engine, .roundAinv .engine, .roundBinv .engine],
      exec i s ≠ .refused (.roundOutOfRange r))

/-! ### The round rules -/

/-- R110: rule A, as a function and as a round tick (DIR = 0, rounds 1-8 and 17-24). -/
def Obligations.RoundARule : Prop :=
  ∀ s : State,
    (∀ (r : Nat) (key : Key) (st : Words), RoundInRange r →
      exec (.roundA (.call r key st)) s = .next (s.observe (.returned (.words
        ⟨g referenceConfig.FTABLE r key st.w1 ^^^ st.w4 ^^^ BitVec.ofNat 16 r, g referenceConfig.FTABLE r key st.w1, st.w2, st.w3⟩)))) ∧
    (∀ (r : Nat) (key : Key) (st : Words), ¬RoundInRange r →
      exec (.roundA (.call r key st)) s = .refused (.roundOutOfRange r)) ∧
    encode (.roundA .engine) = selWord 0b00 ∧
    (s.engine.phase = .run → s.engine.dir = false →
      (1 ≤ s.engine.rnd.toNat ∧ s.engine.rnd.toNat ≤ 8 ∨ 17 ≤ s.engine.rnd.toNat ∧ s.engine.rnd.toNat ≤ 24) →
      exec (.roundA .engine) s = .next (s.withEngine { s.engine with
        w := ⟨g referenceConfig.FTABLE s.engine.rnd.toNat s.engine.k s.engine.w.w1 ^^^ s.engine.w.w4 ^^^ s.engine.rnd.zeroExtend 16,
          g referenceConfig.FTABLE s.engine.rnd.toNat s.engine.k s.engine.w.w1, s.engine.w.w2, s.engine.w.w3⟩
        rnd := s.engine.rnd + 1 }))

/-- R111: rule B, as a function and as a round tick (DIR = 0, rounds 9-16 and 25-32; round 32 is the last). -/
def Obligations.RoundBRule : Prop :=
  ∀ s : State,
    (∀ (r : Nat) (key : Key) (st : Words), RoundInRange r →
      exec (.roundB (.call r key st)) s = .next (s.observe (.returned (.words
        ⟨st.w4, g referenceConfig.FTABLE r key st.w1, st.w1 ^^^ st.w2 ^^^ BitVec.ofNat 16 r, st.w3⟩)))) ∧
    (∀ (r : Nat) (key : Key) (st : Words), ¬RoundInRange r →
      exec (.roundB (.call r key st)) s = .refused (.roundOutOfRange r)) ∧
    encode (.roundB .engine) = selWord 0b01 ∧
    (s.engine.phase = .run → s.engine.dir = false →
      (9 ≤ s.engine.rnd.toNat ∧ s.engine.rnd.toNat ≤ 16 ∨ 25 ≤ s.engine.rnd.toNat ∧ s.engine.rnd.toNat ≤ 32) →
      exec (.roundB .engine) s = .next (s.withEngine { s.engine with
        w := ⟨s.engine.w.w4, g referenceConfig.FTABLE s.engine.rnd.toNat s.engine.k s.engine.w.w1,
          s.engine.w.w1 ^^^ s.engine.w.w2 ^^^ s.engine.rnd.zeroExtend 16, s.engine.w.w3⟩
        rnd := if s.engine.rnd = 32 then 32 else s.engine.rnd + 1
        phase := if s.engine.rnd = 32 then .done else .run }))

/-- R112: rule Ainv, as a function and as a round tick (DIR = 1, rounds 1-8 and 17-24; round 1 is the last). -/
def Obligations.RoundAinvRule : Prop :=
  ∀ s : State,
    (∀ (r : Nat) (key : Key) (st : Words), RoundInRange r →
      exec (.roundAinv (.call r key st)) s = .next (s.observe (.returned (.words
        ⟨gInv referenceConfig.FTABLE r key st.w2, st.w3, st.w4, st.w1 ^^^ st.w2 ^^^ BitVec.ofNat 16 r⟩)))) ∧
    (∀ (r : Nat) (key : Key) (st : Words), ¬RoundInRange r →
      exec (.roundAinv (.call r key st)) s = .refused (.roundOutOfRange r)) ∧
    encode (.roundAinv .engine) = selWord 0b10 ∧
    (s.engine.phase = .run → s.engine.dir = true →
      (1 ≤ s.engine.rnd.toNat ∧ s.engine.rnd.toNat ≤ 8 ∨ 17 ≤ s.engine.rnd.toNat ∧ s.engine.rnd.toNat ≤ 24) →
      exec (.roundAinv .engine) s = .next (s.withEngine { s.engine with
        w := ⟨gInv referenceConfig.FTABLE s.engine.rnd.toNat s.engine.k s.engine.w.w2, s.engine.w.w3, s.engine.w.w4,
          s.engine.w.w1 ^^^ s.engine.w.w2 ^^^ s.engine.rnd.zeroExtend 16⟩
        rnd := if s.engine.rnd = 1 then 1 else s.engine.rnd - 1
        phase := if s.engine.rnd = 1 then .done else .run }))

/-- R113: rule Binv, as a function and as a round tick (DIR = 1, rounds 9-16 and 25-32). -/
def Obligations.RoundBinvRule : Prop :=
  ∀ s : State,
    (∀ (r : Nat) (key : Key) (st : Words), RoundInRange r →
      exec (.roundBinv (.call r key st)) s = .next (s.observe (.returned (.words
        ⟨gInv referenceConfig.FTABLE r key st.w2, gInv referenceConfig.FTABLE r key st.w2 ^^^ st.w3 ^^^ BitVec.ofNat 16 r, st.w4, st.w1⟩)))) ∧
    (∀ (r : Nat) (key : Key) (st : Words), ¬RoundInRange r →
      exec (.roundBinv (.call r key st)) s = .refused (.roundOutOfRange r)) ∧
    encode (.roundBinv .engine) = selWord 0b11 ∧
    (s.engine.phase = .run → s.engine.dir = true →
      (9 ≤ s.engine.rnd.toNat ∧ s.engine.rnd.toNat ≤ 16 ∨ 25 ≤ s.engine.rnd.toNat ∧ s.engine.rnd.toNat ≤ 32) →
      exec (.roundBinv .engine) s = .next (s.withEngine { s.engine with
        w := ⟨gInv referenceConfig.FTABLE s.engine.rnd.toNat s.engine.k s.engine.w.w2,
          gInv referenceConfig.FTABLE s.engine.rnd.toNat s.engine.k s.engine.w.w2 ^^^ s.engine.w.w3 ^^^ s.engine.rnd.zeroExtend 16,
          s.engine.w.w4, s.engine.w.w1⟩
        rnd := s.engine.rnd - 1 }))

/-- A round row whose PHASE or SEL does not select it has no tick to run in (the model's reading, log 7). -/
def Obligations.RoundRowRunsOnlyWhenSelected : Prop :=
  ∀ s : State, s.engine.phase ≠ .unassigned → RoundInRange s.engine.rnd.toNat →
    (exec (.roundA .engine) s = .refused .roundNotSelected ↔ s.engine.phase ≠ .run ∨ s.engine.sel ≠ 0b00) ∧
    (exec (.roundB .engine) s = .refused .roundNotSelected ↔ s.engine.phase ≠ .run ∨ s.engine.sel ≠ 0b01) ∧
    (exec (.roundAinv .engine) s = .refused .roundNotSelected ↔ s.engine.phase ≠ .run ∨ s.engine.sel ≠ 0b10) ∧
    (exec (.roundBinv .engine) s = .refused .roundNotSelected ↔ s.engine.phase ≠ .run ∨ s.engine.sel ≠ 0b11)

/-- R114: Ainv undoes A and Binv undoes B, given the same table, round and key (the spec's own derivation from R110 to R113 and
R105). -/
def Obligations.InverseRulesUndoForwardRules : Prop :=
  ∀ (F : FTable) (r : Nat) (key : Key) (st : Words), RoundInRange r →
    ruleAinv F r key (ruleA F r key st) = st ∧ ruleBinv F r key (ruleB F r key st) = st

/-- R115: r enters each rule as a 16-bit XOR only: with r and r' that use the same key bytes, the results differ by exactly
the XOR of the two round constants, in one word, and in bits 5:0 only ("derived: from 30_encoding.md rule R74"). -/
def Obligations.RoundConstantIsOnlyXored : Prop :=
  ∀ (F : FTable) (r r' : Nat) (key : Key) (st : Words), RoundInRange r → RoundInRange r' → r % 5 = r' % 5 →
    let d := BitVec.ofNat 16 r ^^^ BitVec.ofNat 16 r'
    ruleA F r key st = { ruleA F r' key st with w1 := (ruleA F r' key st).w1 ^^^ d } ∧
    ruleB F r key st = { ruleB F r' key st with w3 := (ruleB F r' key st).w3 ^^^ d } ∧
    ruleAinv F r key st = { ruleAinv F r' key st with w4 := (ruleAinv F r' key st).w4 ^^^ d } ∧
    ruleBinv F r key st = { ruleBinv F r' key st with w2 := (ruleBinv F r' key st).w2 ^^^ d } ∧
    d.extractLsb' 6 10 = 0

/-! ### Split, join and the drivers -/

/-- R120: SPLIT completes and gives the four fields, w1 most significant. -/
def Obligations.SplitGivesTheFourWords : Prop :=
  ∀ (b : Block) (s : State), exec (.split b) s = .next (s.observe (.returned (.words
    ⟨b.extractLsb' 48 16, b.extractLsb' 32 16, b.extractLsb' 16 16, b.extractLsb' 0 16⟩))) ∧
    (encode (.split b)).format = .datapath ∧ (encode (.split b)).code = 0x3

/-- R121: JOIN completes and gives the concatenation, w1 most significant. -/
def Obligations.JoinConcatenatesTheFourWords : Prop :=
  ∀ (st : Words) (s : State), exec (.join st) s =
    .next (s.observe (.returned (.block (st.w1 ++ st.w2 ++ st.w3 ++ st.w4)))) ∧
    (encode (.join st)).format = .datapath ∧ (encode (.join st)).code = 0x4

/-- R122: split and join are inverse both ways; the spec derives the second ("derived: from rule R120 and rule R121"). -/
def Obligations.SplitAndJoinAreInverse : Prop :=
  (∀ b : Block, joinBlock (splitBlock b) = b) ∧ (∀ st : Words, splitBlock (joinBlock st) = st)

/-- R123: encryptBlock is the split, the 32 rounds in ascending order by the schedule of R126, and the join; a key of another
length raises InvalidKeyLength. -/
def Obligations.EncryptBlockRunsRoundsAscending : Prop :=
  ∀ (b : Block) (key : List Byte) (s : State),
    (key.length = 10 → exec (.enc (.call b key)) s = .next (s.observe (.returned (.block
      (joinBlock ((List.range' 1 32).foldl (fun st r =>
        if 1 ≤ r ∧ r ≤ 8 ∨ 17 ≤ r ∧ r ≤ 24 then ruleA referenceConfig.FTABLE r (Vector.ofFn fun i => key.getD i.val 0) st
        else ruleB referenceConfig.FTABLE r (Vector.ofFn fun i => key.getD i.val 0) st) (splitBlock b))))))) ∧
    (key.length ≠ 10 → exec (.enc (.call b key)) s = .fault (.invalidKeyLength key.length)) ∧
    decode (cmdWord 0b01) = .ok (.enc .ports)

/-- R124: decryptBlock is the split, the 32 rounds in descending order with the inverse rules, and the join; a key of another
length raises InvalidKeyLength. -/
def Obligations.DecryptBlockRunsRoundsDescending : Prop :=
  ∀ (b : Block) (key : List Byte) (s : State),
    (key.length = 10 → exec (.dec (.call b key)) s = .next (s.observe (.returned (.block
      (joinBlock ((List.range' 1 32).reverse.foldl (fun st r =>
        if 1 ≤ r ∧ r ≤ 8 ∨ 17 ≤ r ∧ r ≤ 24 then ruleAinv referenceConfig.FTABLE r (Vector.ofFn fun i => key.getD i.val 0) st
        else ruleBinv referenceConfig.FTABLE r (Vector.ofFn fun i => key.getD i.val 0) st) (splitBlock b))))))) ∧
    (key.length ≠ 10 → exec (.dec (.call b key)) s = .fault (.invalidKeyLength key.length)) ∧
    decode (cmdWord 0b10) = .ok (.dec .ports)

/-- R127: decryption undoes encryption, and encryption undoes decryption (the spec's own inference), for every table
(R93), every block and every ten-byte key. -/
def Obligations.DecryptUndoesEncrypt : Prop :=
  ∀ (F : FTable) (b : Block) (key : List Byte), key.length = 10 →
    (∃ c, encryptBlock F b key = .ok c ∧ decryptBlock F c key = .ok b) ∧
    (∃ c, decryptBlock F b key = .ok c ∧ encryptBlock F c key = .ok b)

/-! ### The round state machine -/

/-- R133: every tick without reset in RUN applies the round, whatever the command: the four W by the scheduled rule from
pre-tick values, RND and PHASE by DIR; K and DIR stay; the command sets its own error bit, with its mark, at most. -/
def Obligations.EveryRunTickAppliesOneRound : Prop :=
  ∀ (s : State) (p : PortIn) (rest : List HostStmt), s.Inv → s.engine.phase = .run →
    s.host = .tick p :: rest → p.rst = false →
    ∃ t, step s = .next t ∧
      t.engine.w = (match s.engine.sel with
        | 0b00#2 => ruleA referenceConfig.FTABLE s.engine.rnd.toNat s.engine.k s.engine.w
        | 0b01#2 => ruleB referenceConfig.FTABLE s.engine.rnd.toNat s.engine.k s.engine.w
        | 0b10#2 => ruleAinv referenceConfig.FTABLE s.engine.rnd.toNat s.engine.k s.engine.w
        | _ => ruleBinv referenceConfig.FTABLE s.engine.rnd.toNat s.engine.k s.engine.w) ∧
      (s.engine.dir = false → s.engine.rnd = 32 → t.engine.phase = .done ∧ t.engine.rnd = 32) ∧
      (s.engine.dir = false → s.engine.rnd ≠ 32 → t.engine.phase = .run ∧ t.engine.rnd = s.engine.rnd + 1) ∧
      (s.engine.dir = true → s.engine.rnd = 1 → t.engine.phase = .done ∧ t.engine.rnd = 1) ∧
      (s.engine.dir = true → s.engine.rnd ≠ 1 → t.engine.phase = .run ∧ t.engine.rnd = s.engine.rnd - 1) ∧
      t.engine.k = s.engine.k ∧ t.engine.dir = s.engine.dir ∧
      t.engine.errIll = (s.engine.errIll || p.cmd == 0b11) ∧
      t.engine.errBusy = (s.engine.errBusy || p.cmd == 0b01 || p.cmd == 0b10) ∧
      t.ports = p ∧ t.host = rest ∧ t.log = s.log ∧ t.freeReads = s.freeReads ∧
      t.faultMarks = (commandError? .run p.cmd).toList ++ s.faultMarks

/-- R134: the tick of the last round makes PHASE DONE with the result at block_out, and in DONE a tick that is neither an
accept nor a reset holds it. -/
def Obligations.ResultAppearsAndIsHeld : Prop :=
  ∀ (s : State) (p : PortIn) (rest : List HostStmt), s.Inv → s.host = .tick p :: rest → p.rst = false →
    (s.engine.phase = .run → s.engine.rnd = (if s.engine.dir then 1 else 32) →
      ∃ t, step s = .next t ∧ t.engine.phase = .done ∧ t.engine.done = true ∧ t.engine.busy = false ∧
        t.engine.blockOut? = some (joinBlock t.engine.w)) ∧
    (s.engine.phase = .done → p.cmd = 0b00 ∨ p.cmd = 0b11 →
      ∃ t, step s = .next t ∧ t.engine.phase = .done ∧ t.engine.done = true ∧ t.engine.busy = false ∧
        t.engine.w = s.engine.w ∧ t.engine.blockOut? = some (joinBlock s.engine.w))

/-- R135 (the spec's own inference from R123, R124, R130, R131 and R133): an accepted ENC or DEC, then any 32 ticks without reset, whatever commands and data they present: PHASE is RUN
after the accept tick and the 31 next, DONE after the last, the result is encryptBlock or decryptBlock of what the accept
tick presented, and the commands change only ERR_ILL and ERR_BUSY, with one fault mark each. -/
def Obligations.OperationTakesThirtyTwoRoundTicks : Prop :=
  ∀ (s : State) (p : PortIn) (ps : List PortIn) (rest : List HostStmt) (decrypt : Bool),
    s.engine.phase = .idle ∨ s.engine.phase = .done →
    s.host = .tick p :: tickStmts ps ++ rest → p.rst = false → p.cmd = (if decrypt then 0b10 else 0b01) →
    ps.length = 32 → NoReset ps →
    (∀ n ≤ 31, ∃ t, steps (1 + n) s = .next t ∧ t.engine.phase = .run) ∧
    ∃ t, steps 33 s = .next t ∧ t.engine.phase = .done ∧
      (let key := (List.range 10).map fun i => p.keyIn.extractLsb' (72 - 8 * i) 8
       (if decrypt then decryptBlock referenceConfig.FTABLE p.blockIn key else encryptBlock referenceConfig.FTABLE p.blockIn key) =
        .ok (joinBlock t.engine.w)) ∧
      t.engine.blockOut? = some (joinBlock t.engine.w) ∧
      t.engine.errIll = (s.engine.errIll || ps.any fun q => q.cmd == 0b11) ∧
      t.engine.errBusy = (s.engine.errBusy || ps.any fun q => q.cmd == 0b01 || q.cmd == 0b10) ∧
      t.faultMarks = ps.reverse.filterMap (fun q => commandError? .run q.cmd) ++ s.faultMarks ∧
      t.host = rest ∧ t.log = s.log

/-- R136 (the spec's own inference from R131 and R133): after an accept, ticks of any kind give two engines the same W, K, RND, DIR and PHASE, whatever they held before
(their error bits too). The ticks may be resets, after which W, K, RND and DIR are equal because the model gives them reset
values (log 1); in the ticks after an accept without a reset it is the spec's rule alone. -/
def Obligations.NoResidueOfAnEarlierOperation : Prop :=
  ∀ (s s' : State) (p : PortIn) (ps : List PortIn),
    s.engine.phase = .idle ∨ s.engine.phase = .done → s'.engine.phase = .idle ∨ s'.engine.phase = .done →
    s.host = tickStmts (p :: ps) → s'.host = tickStmts (p :: ps) →
    p.rst = false → p.cmd = 0b01 ∨ p.cmd = 0b10 →
    ∃ t t', steps (ps.length + 1) s = .next t ∧ steps (ps.length + 1) s' = .next t' ∧
      t.engine.w = t'.engine.w ∧ t.engine.k = t'.engine.k ∧ t.engine.rnd = t'.engine.rnd ∧
      t.engine.dir = t'.engine.dir ∧ t.engine.phase = t'.engine.phase

/-- R176 (the spec's own inference from R130): ENC or DEC held for two ticks starts the operation and then raises
CommandWhileBusy, and the first round, A at 1 or Binv at 32, runs on what the first tick presented. -/
def Obligations.HeldCommandStartsThenIsBusy : Prop :=
  ∀ (s : State) (p : PortIn) (rest : List HostStmt) (decrypt : Bool), s.engine.phase = .idle ∨ s.engine.phase = .done →
    s.host = .tick p :: .tick p :: rest → p.rst = false → p.cmd = (if decrypt then 0b10 else 0b01) →
    ∃ t, steps 2 s = .next t ∧ t.engine.errBusy = true ∧ t.engine.errIll = s.engine.errIll ∧ t.engine.phase = .run ∧
      t.engine.dir = decrypt ∧ t.engine.k = keyOfPort p.keyIn ∧
      t.engine.rnd = (if decrypt then 31 else 2) ∧
      t.engine.w = (if decrypt then ruleBinv referenceConfig.FTABLE 32 (keyOfPort p.keyIn) (splitBlock p.blockIn)
        else ruleA referenceConfig.FTABLE 1 (keyOfPort p.keyIn) (splitBlock p.blockIn)) ∧
      t.faultMarks = .commandWhileBusy :: s.faultMarks ∧ t.host = rest

/-! ### What the host sees -/

/-- R31: a read of block_out gives the result in DONE and a free value, new at each read, in IDLE and RUN; it has no side
effect on the engine, and in DONE a second read gives the same. The source and the counter that make each free value new are
the model's own (log 4). -/
def Obligations.BlockOutReads : Prop :=
  ∀ (s : State) (rest : List HostStmt), s.host = .read .blockOut :: rest →
    (s.engine.phase = .done →
      step s = .next ((s.withHost rest).observe (.blockOut (joinBlock s.engine.w))) ∧
      ∀ t, step s = .next t → ∀ rest', rest = .read .blockOut :: rest' →
        ∃ u, step t = .next u ∧ u.engine = s.engine ∧
          u.log = .blockOut (joinBlock s.engine.w) :: .blockOut (joinBlock s.engine.w) :: s.log) ∧
    (s.engine.phase = .idle ∨ s.engine.phase = .run →
      ∃ t, step s = .next t ∧ t.engine = s.engine ∧ t.ports = s.ports ∧ t.host = rest ∧
        t.log = .blockOut (Config.freeBlockOut s.freeReads.source s.freeReads.count) :: s.log ∧
        t.freeReads = ⟨s.freeReads.source, s.freeReads.count + 1⟩ ∧ t.faultMarks = s.faultMarks)

/-- R30: the fields of STATUS, bit by bit, and reading it has no side effect. -/
def Obligations.StatusRegisterFields : Prop :=
  (∀ e : Engine,
    (e.status.getLsbD 0 = true ↔ e.phase = .run) ∧ (e.status.getLsbD 1 = true ↔ e.phase = .done) ∧
    e.status.getLsbD 2 = e.errIll ∧ e.status.getLsbD 3 = e.errBusy ∧ e.status.extractLsb' 4 4 = 0) ∧
  ∀ (s : State) (rest : List HostStmt), s.host = .read .status :: rest → s.engine.phase ≠ .unassigned →
    step s = .next ((s.withHost rest).observe (.status s.engine.status))

/-- R32: the numbers, widths and access rights of the host-visible registers; BUSY and DONE are never both 1 (R30, the spec's
own inference from R26); a read against the access right is refused (log 12). -/
def Obligations.HostRegistersAndAccess : Prop :=
  [HostReg.cmd, .blockIn, .keyIn, .blockOut, .status].map (fun r => (regNumber r, regWidth r, regAccess r)) =
    [(0, 2, .write), (1, 64, .write), (2, 80, .write), (3, 64, .readOnly), (4, 8, .readOnly)] ∧
  (∀ e : Engine, ¬(e.status.getLsbD 0 = true ∧ e.status.getLsbD 1 = true)) ∧
  ∀ (s : State) (reg : HostReg) (rest : List HostStmt), s.host = .read reg :: rest → regAccess reg = .write →
    step s = .refused (.registerNotReadable reg)

/-! ### Whole-machine rules -/

/-- Every step from a legal state gives a legal state: PHASE is never 11, RND stays in [1,32] and, in DONE, rests at the last
round (10_state.md sections 3 and 6; 43_block_drivers.md section 2). -/
def Obligations.EveryStepKeepsTheEngineLegal : Prop :=
  ∀ s t : State, s.Inv → step s = .next t → t.Inv

/-- R137 and R181 (the spec's own inferences from R129 and R133): from a legal state every tick answers a next state; the machine has no stall, wait or hang. -/
def Obligations.EveryTickCompletes : Prop :=
  ∀ (s : State) (p : PortIn), s.Inv → s.nextPorts? = some p → ∃ t, step s = .next t ∧ t.ports = p

/-- 10_state.md R21, R23, R25: a step that changes K or DIR is an accept or a reset, one that changes W or RND is an accept,
a round tick or a reset, and a step that is not a tick changes no part of the engine. -/
def Obligations.WhoWritesTheEngineRegisters : Prop :=
  ∀ s t : State, step s = .next t →
    (t.engine.k ≠ s.engine.k ∨ t.engine.dir ≠ s.engine.dir →
      ∃ p, s.nextPorts? = some p ∧
        (p.rst = true ∨ (p.cmd = 0b01 ∨ p.cmd = 0b10) ∧ (s.engine.phase = .idle ∨ s.engine.phase = .done))) ∧
    (t.engine.w ≠ s.engine.w ∨ t.engine.rnd ≠ s.engine.rnd ∨ t.engine.phase ≠ s.engine.phase →
      ∃ p, s.nextPorts? = some p ∧
        (p.rst = true ∨ s.engine.phase = .run ∨
          (p.cmd = 0b01 ∨ p.cmd = 0b10) ∧ (s.engine.phase = .idle ∨ s.engine.phase = .done))) ∧
    (s.nextPorts? = none → t.engine = s.engine ∧ t.ports = s.ports)

/-- 00_scope.md R16, 43_block_drivers.md R125: a function-level form gives its caller one value and changes nothing else. -/
def Obligations.FunctionCallsChangeNoRegister : Prop :=
  ∀ (i : Instr) (s t : State), i.isCall = true → exec i s = .next t →
    ∃ v, t = s.observe (.returned v) ∧ ∀ s' : State, exec i s' = .next (s'.observe (.returned v))

/-- 10_state.md R26: with PHASE = 11 every tick but a reset tick is stuck, and so is every read of an output; a reset tick
leaves it for IDLE; a function-level call reads no PHASE and goes on as anywhere; and no step makes PHASE 11. Which steps are
stuck is the model's reading (log 8, DEDUCED). -/
def Obligations.UnassignedPhaseIsStuck : Prop :=
  (∀ (s : State) (p : PortIn), s.engine.phase = .unassigned → s.nextPorts? = some p → p.rst = false →
    step s = .fault .stuckPhase) ∧
  (∀ (s : State) (reg : HostReg) (rest : List HostStmt), s.engine.phase = .unassigned → regAccess reg = .readOnly →
    s.host = .read reg :: rest → step s = .fault .stuckPhase) ∧
  (∀ (s : State) (p : PortIn), s.engine.phase = .unassigned → s.nextPorts? = some p → p.rst = true →
    ∃ t, step s = .next t ∧ t.engine.phase = .idle) ∧
  (∀ (s : State) (w : InstrWord) (rest : List HostStmt), s.engine.phase = .unassigned → s.host = .call w :: rest →
    step s ≠ .fault .stuckPhase ∧ ∀ t, step s = .next t → t.engine = s.engine ∧ t.ports = s.ports) ∧
  (∀ s t : State, step s = .next t → t.engine.phase = .unassigned → s.engine.phase = .unassigned)

/-- 30_encoding.md R77, R78 (the model's reading, log 7): a host call of a form that only a tick runs, or of a word that does
not decode, is refused by name. -/
def Obligations.OnlyFunctionsAreCallable : Prop :=
  ∀ (s : State) (w : InstrWord) (rest : List HostStmt), s.host = .call w :: rest →
    (∀ i, decode w = .ok i → i.isCall = false → step s = .refused .notCallable) ∧
    (∀ e, decode w = .error e → step s = .refused (.undecodable e))

/-- R62: in every interleaving each instance comes to what it comes to alone, a stop included: alone, it makes its own number
of steps with the one table they share. That the instances are a list of outcomes, and that one's stop leaves the others
going, is the model's choice (log 10). -/
def Obligations.InstancesDoNotInterfere : Prop :=
  ∀ (c : Config) (schedule : List Nat) (sys : System) (k : Nat),
    (systemRun c schedule sys)[k]? = (sys[k]?).map fun o => andThen o (stepsOf c (schedule.count k))

/-- R10 and R162: a configuration has at least one instance, the reference one exactly one, and each starts in the reset state
of its own, with a source of free values that no other has (log 4, log 10). -/
def Obligations.InstancesStartAfterTheirOwnReset : Prop :=
  referenceSystem.length = 1 ∧
  ∀ c : Config, 1 ≤ (systemReset c).length ∧ (systemReset c).length = c.N_INSTANCES ∧
    ∀ k < c.N_INSTANCES, ∃ s, (systemReset c)[k]? = some (.next s) ∧ s.engine = State.reset.engine ∧
      s.engine.phase = .idle ∧ s.host = [] ∧ s.log = [] ∧ s.NoErrorRecorded ∧ s.freeReads = ⟨k, 0⟩
end

