-- ==== Sys2Proof/Laws/Operands.lean ====
section
/-! SUPPORT. The laws of operand assembly: bytes, words, keys and the operand bytes of a call. -/

namespace Sys2Proof.Machine

/-- The bits of `(hi << 8) | lo`. -/
theorem getLsbD_wordOf (hi lo : Byte) (i : Nat) :
    (wordOf hi lo).getLsbD i = if i < 8 then lo.getLsbD i else hi.getLsbD (i - 8) :=
  BitVec.getLsbD_append (x := hi) (y := lo)

theorem getLsbD_hiByte (w : Word) (i : Nat) : (hiByte w).getLsbD i = (decide (i < 8) && w.getLsbD (8 + i)) := by
  simp [hiByte]

theorem getLsbD_loByte (w : Word) (i : Nat) : (loByte w).getLsbD i = (decide (i < 8) && w.getLsbD i) := by
  simp [loByte]

/-- The bits of a joined block: `w4` lowest, `w1` highest (20_memory.md R54). -/
theorem getLsbD_joinBlock (st : Words) (i : Nat) : (joinBlock st).getLsbD i =
    if i < 16 then st.w4.getLsbD i else if i < 32 then st.w3.getLsbD (i - 16)
    else if i < 48 then st.w2.getLsbD (i - 32) else st.w1.getLsbD (i - 48) := by
  have h1 := BitVec.getLsbD_append (x := st.w1 ++ st.w2 ++ st.w3) (y := st.w4) (i := i)
  have h2 := BitVec.getLsbD_append (x := st.w1 ++ st.w2) (y := st.w3) (i := i - 16)
  have h3 := BitVec.getLsbD_append (x := st.w1) (y := st.w2) (i := i - 16 - 16)
  refine h1.trans ?_
  rw [h2, h3]
  split_ifs <;> first | omega | rfl

@[simp] theorem wordOf_hiByte_loByte (w : Word) : wordOf (hiByte w) (loByte w) = w := by
  refine BitVec.eq_of_getLsbD_eq fun i hi => ?_
  rw [getLsbD_wordOf, getLsbD_hiByte, getLsbD_loByte]
  split
  · simp [*]
  · rw [show 8 + (i - 8) = i by omega, decide_eq_true (by omega), Bool.true_and]

@[simp] theorem hiByte_wordOf (a b : Byte) : hiByte (wordOf a b) = a := by
  refine BitVec.eq_of_getLsbD_eq fun i hi => ?_
  rw [getLsbD_hiByte, getLsbD_wordOf, if_neg (by omega), show 8 + i - 8 = i by omega]
  simp [hi]

@[simp] theorem loByte_wordOf (a b : Byte) : loByte (wordOf a b) = b := by
  refine BitVec.eq_of_getLsbD_eq fun i hi => ?_
  rw [getLsbD_loByte, getLsbD_wordOf, if_pos hi]
  simp [hi]

/-- The four words survive being laid out as eight bytes, whatever follows them. -/
@[simp] theorem wordsOfBytes_bytesOfWords_append (st : Words) (l : List Byte) :
    wordsOfBytes (bytesOfWords st ++ l) = st := by
  simp [wordsOfBytes, bytesOfWords]

@[simp] theorem wordsOfBytes_bytesOfWords (st : Words) : wordsOfBytes (bytesOfWords st) = st := by
  simpa using wordsOfBytes_bytesOfWords_append st []

@[simp] theorem length_bytesOfWords (st : Words) : (bytesOfWords st).length = 8 := rfl

/-- A key survives being laid out as ten bytes, whatever follows them. -/
@[simp] theorem keyOfList_toList_append (key : Key) (l : List Byte) : keyOfList (key.toList ++ l) = key := by
  ext i hi
  simp [keyOfList, List.getElem?_append_left]

@[simp] theorem keyOfList_toList (key : Key) : keyOfList key.toList = key := by
  simpa using keyOfList_toList_append key []

@[simp] theorem getElem_keyOfPort (k : KeyBits) (i : Nat) (hi : i < 10) :
    (keyOfPort k)[i] = k.extractLsb' (72 - 8 * i) 8 := by
  simp [keyOfPort]

@[simp] theorem getElem_keyOfList (l : List Byte) (i : Nat) (hi : i < 10) : (keyOfList l)[i] = l.getD i 0 := by
  simp [keyOfList]

/-- The key index depends on the residue only (20_memory.md R52). -/
@[simp] theorem keyByte_mod (key : Key) (j : Nat) : keyByte key (j % 10) = keyByte key j := by
  simp [keyByte]

end Sys2Proof.Machine
end

