-- ==== Sys2Proof/Laws/State.lean ====
section
/-! SUPPORT. One lemma per field per update of the state, each true by rfl. -/

namespace Sys2Proof.Machine

@[simp] theorem State.withEngine_engine (s : State) (e : Engine) : (s.withEngine e).engine = e := rfl
@[simp] theorem State.withEngine_ports (s : State) (e : Engine) : (s.withEngine e).ports = s.ports := rfl
@[simp] theorem State.withEngine_host (s : State) (e : Engine) : (s.withEngine e).host = s.host := rfl
@[simp] theorem State.withEngine_log (s : State) (e : Engine) : (s.withEngine e).log = s.log := rfl
@[simp] theorem State.withEngine_freeReads (s : State) (e : Engine) : (s.withEngine e).freeReads = s.freeReads := rfl
@[simp] theorem State.withEngine_faultMarks (s : State) (e : Engine) : (s.withEngine e).faultMarks = s.faultMarks := rfl

@[simp] theorem State.withPorts_engine (s : State) (p : PortIn) : (s.withPorts p).engine = s.engine := rfl
@[simp] theorem State.withPorts_ports (s : State) (p : PortIn) : (s.withPorts p).ports = p := rfl
@[simp] theorem State.withPorts_host (s : State) (p : PortIn) : (s.withPorts p).host = s.host := rfl
@[simp] theorem State.withPorts_log (s : State) (p : PortIn) : (s.withPorts p).log = s.log := rfl
@[simp] theorem State.withPorts_freeReads (s : State) (p : PortIn) : (s.withPorts p).freeReads = s.freeReads := rfl
@[simp] theorem State.withPorts_faultMarks (s : State) (p : PortIn) : (s.withPorts p).faultMarks = s.faultMarks := rfl

@[simp] theorem State.withHost_engine (s : State) (h : List HostStmt) : (s.withHost h).engine = s.engine := rfl
@[simp] theorem State.withHost_ports (s : State) (h : List HostStmt) : (s.withHost h).ports = s.ports := rfl
@[simp] theorem State.withHost_host (s : State) (h : List HostStmt) : (s.withHost h).host = h := rfl
@[simp] theorem State.withHost_log (s : State) (h : List HostStmt) : (s.withHost h).log = s.log := rfl
@[simp] theorem State.withHost_freeReads (s : State) (h : List HostStmt) : (s.withHost h).freeReads = s.freeReads := rfl
@[simp] theorem State.withHost_faultMarks (s : State) (h : List HostStmt) : (s.withHost h).faultMarks = s.faultMarks := rfl

@[simp] theorem State.observe_engine (s : State) (o : Observation) : (s.observe o).engine = s.engine := rfl
@[simp] theorem State.observe_ports (s : State) (o : Observation) : (s.observe o).ports = s.ports := rfl
@[simp] theorem State.observe_host (s : State) (o : Observation) : (s.observe o).host = s.host := rfl
@[simp] theorem State.observe_log (s : State) (o : Observation) : (s.observe o).log = o :: s.log := rfl
@[simp] theorem State.observe_freeReads (s : State) (o : Observation) : (s.observe o).freeReads = s.freeReads := rfl
@[simp] theorem State.observe_faultMarks (s : State) (o : Observation) : (s.observe o).faultMarks = s.faultMarks := rfl

@[simp] theorem State.withMarks_engine (s : State) (m : List ErrorCause) : (s.withMarks m).engine = s.engine := rfl
@[simp] theorem State.withMarks_ports (s : State) (m : List ErrorCause) : (s.withMarks m).ports = s.ports := rfl
@[simp] theorem State.withMarks_host (s : State) (m : List ErrorCause) : (s.withMarks m).host = s.host := rfl
@[simp] theorem State.withMarks_log (s : State) (m : List ErrorCause) : (s.withMarks m).log = s.log := rfl
@[simp] theorem State.withMarks_freeReads (s : State) (m : List ErrorCause) : (s.withMarks m).freeReads = s.freeReads := rfl
@[simp] theorem State.withMarks_faultMarks (s : State) (m : List ErrorCause) : (s.withMarks m).faultMarks = m := rfl

@[simp] theorem State.recordFault_engine (s : State) (c : ErrorCause) : (s.recordFault c).engine = s.engine := rfl
@[simp] theorem State.recordFault_ports (s : State) (c : ErrorCause) : (s.recordFault c).ports = s.ports := rfl
@[simp] theorem State.recordFault_host (s : State) (c : ErrorCause) : (s.recordFault c).host = s.host := rfl
@[simp] theorem State.recordFault_log (s : State) (c : ErrorCause) : (s.recordFault c).log = s.log := rfl
@[simp] theorem State.recordFault_freeReads (s : State) (c : ErrorCause) : (s.recordFault c).freeReads = s.freeReads := rfl
@[simp] theorem State.recordFault_faultMarks (s : State) (c : ErrorCause) : (s.recordFault c).faultMarks = c :: s.faultMarks := rfl

@[simp] theorem State.countFreeRead_engine (s : State) : s.countFreeRead.engine = s.engine := rfl
@[simp] theorem State.countFreeRead_ports (s : State) : s.countFreeRead.ports = s.ports := rfl
@[simp] theorem State.countFreeRead_host (s : State) : s.countFreeRead.host = s.host := rfl
@[simp] theorem State.countFreeRead_log (s : State) : s.countFreeRead.log = s.log := rfl
@[simp] theorem State.countFreeRead_freeReads (s : State) : s.countFreeRead.freeReads = { s.freeReads with count := s.freeReads.count + 1 } := rfl
@[simp] theorem State.countFreeRead_faultMarks (s : State) : s.countFreeRead.faultMarks = s.faultMarks := rfl

@[simp] theorem State.withEngine_self (s : State) : s.withEngine s.engine = s := rfl
@[simp] theorem State.withMarks_self (s : State) : s.withMarks s.faultMarks = s := rfl
@[simp] theorem State.withHost_withHost (s : State) (h h' : List HostStmt) :
    (s.withHost h).withHost h' = s.withHost h' := rfl
@[simp] theorem State.withHost_self (s : State) : s.withHost s.host = s := rfl
@[simp] theorem State.withPorts_withPorts (s : State) (p q : PortIn) :
    (s.withPorts p).withPorts q = s.withPorts q := rfl

@[simp] theorem resetEngine_engine (s : State) : (resetEngine s).engine = Engine.reset := rfl
@[simp] theorem resetEngine_ports (s : State) : (resetEngine s).ports = s.ports := rfl
@[simp] theorem resetEngine_host (s : State) : (resetEngine s).host = s.host := rfl
@[simp] theorem resetEngine_log (s : State) : (resetEngine s).log = s.log := rfl
@[simp] theorem resetEngine_freeReads (s : State) : (resetEngine s).freeReads = s.freeReads := rfl
@[simp] theorem resetEngine_faultMarks (s : State) : (resetEngine s).faultMarks = s.faultMarks := rfl

@[simp] theorem accept_ports (dir : Bool) (s : State) : (accept dir s).ports = s.ports := rfl
@[simp] theorem accept_host (dir : Bool) (s : State) : (accept dir s).host = s.host := rfl
@[simp] theorem accept_log (dir : Bool) (s : State) : (accept dir s).log = s.log := rfl
@[simp] theorem accept_freeReads (dir : Bool) (s : State) : (accept dir s).freeReads = s.freeReads := rfl
@[simp] theorem accept_faultMarks (dir : Bool) (s : State) : (accept dir s).faultMarks = s.faultMarks := rfl

@[simp] theorem accept_engine_w (dir : Bool) (s : State) : (accept dir s).engine.w = splitBlock s.ports.blockIn := rfl
@[simp] theorem accept_engine_k (dir : Bool) (s : State) : (accept dir s).engine.k = keyOfPort s.ports.keyIn := rfl
@[simp] theorem accept_engine_rnd (dir : Bool) (s : State) : (accept dir s).engine.rnd = if dir then 32 else 1 := rfl
@[simp] theorem accept_engine_dir (dir : Bool) (s : State) : (accept dir s).engine.dir = dir := rfl
@[simp] theorem accept_engine_phase (dir : Bool) (s : State) : (accept dir s).engine.phase = .run := rfl
@[simp] theorem accept_engine_errIll (dir : Bool) (s : State) : (accept dir s).engine.errIll = s.engine.errIll := rfl
@[simp] theorem accept_engine_errBusy (dir : Bool) (s : State) : (accept dir s).engine.errBusy = s.engine.errBusy := rfl

@[simp] theorem sequenceRound_w (e : Engine) : (sequenceRound e).w = e.w := by
  unfold sequenceRound; split <;> split <;> rfl
@[simp] theorem sequenceRound_k (e : Engine) : (sequenceRound e).k = e.k := by
  unfold sequenceRound; split <;> split <;> rfl
@[simp] theorem sequenceRound_dir (e : Engine) : (sequenceRound e).dir = e.dir := by
  unfold sequenceRound; split <;> split <;> rfl
@[simp] theorem sequenceRound_errIll (e : Engine) : (sequenceRound e).errIll = e.errIll := by
  unfold sequenceRound; split <;> split <;> rfl
@[simp] theorem sequenceRound_errBusy (e : Engine) : (sequenceRound e).errBusy = e.errBusy := by
  unfold sequenceRound; split <;> split <;> rfl

/-- A round is the last of its direction and makes PHASE DONE, or it steps RND (43_block_drivers.md R133). -/
theorem sequenceRound_cases (e : Engine) :
    (e.rnd = (if e.dir then 1 else 32) ∧ sequenceRound e = { e with phase := .done }) ∨
    (e.rnd ≠ (if e.dir then 1 else 32) ∧
      sequenceRound e = { e with rnd := if e.dir then e.rnd - 1 else e.rnd + 1 }) := by
  unfold sequenceRound
  cases hd : e.dir with
  | false => by_cases h : e.rnd = 32 <;> [exact .inl ⟨h, if_pos h⟩; exact .inr ⟨h, if_neg h⟩]
  | true => by_cases h : e.rnd = 1 <;> [exact .inl ⟨h, if_pos h⟩; exact .inr ⟨h, if_neg h⟩]


end Sys2Proof.Machine
end

