-- ==== Sys2Proof/Laws/Ops.lean ====
section
/-! SUPPORT. For each shared operation, one lemma that says when it answers a next state and which. -/

namespace Sys2Proof.Machine

/-- A composition answers `t` exactly where its first part answers a state from which the second answers `t`. -/
theorem andThen_eq_next {o : Result} {k : State → Result} {t : State} :
    andThen o k = .next t ↔ ∃ s, o = .next s ∧ k s = .next t := by
  cases o <;> simp [andThen]

@[simp] theorem andThen_next (s : State) (k : State → Result) : andThen (.next s) k = k s := rfl
@[simp] theorem andThen_fault (r : Fault) (k : State → Result) : andThen (.fault r) k = .fault r := rfl
@[simp] theorem andThen_refused (r : Refusal) (k : State → Result) : andThen (.refused r) k = .refused r := rfl

/-- An error goes on only as a hardware error, and then with its own sticky bit set and its fault mark recorded. -/
theorem raise_eq_next {c : ErrorCause} {s t : State} : raise c s = .next t ↔
    (c = .illegalCommand ∧ t = (s.withEngine { s.engine with errIll := true }).recordFault .illegalCommand) ∨
    (c = .commandWhileBusy ∧ t = (s.withEngine { s.engine with errBusy := true }).recordFault .commandWhileBusy) := by
  cases c <;> simp [raise, eq_comm]

/-- A start command goes on as an accept in IDLE and DONE and as CommandWhileBusy in RUN. -/
theorem startCommand_eq_next {dir : Bool} {s t : State} : startCommand dir s = .next t ↔
    ((s.engine.phase = .idle ∨ s.engine.phase = .done) ∧ t = accept dir s) ∨
    (s.engine.phase = .run ∧ t = (s.withEngine { s.engine with errBusy := true }).recordFault .commandWhileBusy) := by
  unfold startCommand
  cases s.engine.phase <;> simp [raise, eq_comm]

/-- A round tick goes on exactly where the state selects the row, and then applies the rule and sequences the round. -/
theorem roundTick_eq_next {sel : Sel} {rule : Nat → Key → Words → Words} {s t : State} :
    roundTick sel rule s = .next t ↔
      s.engine.phase = .run ∧ RoundInRange s.engine.rnd.toNat ∧ s.engine.sel = sel ∧
      t = s.withEngine (sequenceRound { s.engine with w := rule s.engine.rnd.toNat s.engine.k s.engine.w }) := by
  unfold roundTick
  cases s.engine.phase with
  | idle => simp
  | done => simp
  | unassigned => simp
  | run =>
    by_cases hr : RoundInRange s.engine.rnd.toNat
    · by_cases hs : s.engine.sel = sel
      · simp only [if_pos hr, if_pos hs, Host.Outcome.next.injEq]
        exact ⟨fun h => ⟨trivial, hr, hs, h.symm⟩, fun h => h.2.2.2.symm⟩
      · simp [if_pos hr, hs]
    · simp only [if_neg hr]
      exact ⟨nofun, fun h => absurd h.2.1 hr⟩

/-- A function of a round number goes on exactly inside [1,32], and then returns its value. -/
theorem inRound_eq_next {r : Nat} {v : Value} {s t : State} :
    inRound r v s = .next t ↔ RoundInRange r ∧ t = s.observe (.returned v) := by
  by_cases hr : RoundInRange r
  · simp only [inRound, returnValue, if_pos hr, Host.Outcome.next.injEq]
    exact ⟨fun h => ⟨hr, h.symm⟩, fun h => h.2.symm⟩
  · simp only [inRound, if_neg hr]
    exact ⟨nofun, fun h => absurd h.1 hr⟩

/-- A driver call goes on exactly where it gives a block. -/
theorem returnDriver_eq_next {v : Except ErrorCause Block} {s t : State} (hv : ∀ c, v = .error c → ∃ n, c = .invalidKeyLength n) :
    returnDriver v s = .next t ↔ ∃ b, v = .ok b ∧ t = s.observe (.returned (.block b)) := by
  cases v with
  | ok b => simp [returnDriver, returnValue, eq_comm]
  | error c =>
    obtain ⟨n, rfl⟩ := hv c rfl
    simp [returnDriver, raise]

/-- The only error of a driver is a key of another length (60_exceptions.md R151). -/
theorem checkKey_error {key : List Byte} {c : ErrorCause} (h : checkKey key = .error c) :
    c = .invalidKeyLength key.length ∧ key.length ≠ keyBytes := by
  unfold checkKey at h
  split at h <;> simp_all

theorem encryptBlock_error {F : FTable} {b : Block} {key : List Byte} {c : ErrorCause} (h : encryptBlock F b key = .error c) :
    c = .invalidKeyLength key.length := by
  unfold encryptBlock at h
  cases hk : checkKey key <;> simp_all [Except.map]
  exact (checkKey_error hk).1

theorem decryptBlock_error {F : FTable} {b : Block} {key : List Byte} {c : ErrorCause} (h : decryptBlock F b key = .error c) :
    c = .invalidKeyLength key.length := by
  unfold decryptBlock at h
  cases hk : checkKey key <;> simp_all [Except.map]
  exact (checkKey_error hk).1

theorem encryptBlock_of_length {F : FTable} {b : Block} {key : List Byte} (h : key.length = 10) :
    encryptBlock F b key = .ok (encryptWith F b (keyOfList key)) := by
  simp [encryptBlock, checkKey, h, Except.map]

theorem decryptBlock_of_length {F : FTable} {b : Block} {key : List Byte} (h : key.length = 10) :
    decryptBlock F b key = .ok (decryptWith F b (keyOfList key)) := by
  simp [decryptBlock, checkKey, h, Except.map]

/-- A host read goes on only for the read-only registers, with one observation more; the engine, the ports, the host's
statements and the fault marks stay. -/
theorem readReg_eq_next {reg : HostReg} {s t : State} (h : readReg reg s = .next t) :
    s.engine.phase ≠ .unassigned ∧ regAccess reg = .readOnly ∧ t.engine = s.engine ∧ t.ports = s.ports ∧
      t.host = s.host ∧ t.faultMarks = s.faultMarks ∧ ∃ o, t.log = o :: s.log := by
  unfold readReg readBlockOut readStatus at h
  cases reg <;> cases hp : s.engine.phase <;> simp [hp] at h <;> subst h <;> simp [regAccess]

end Sys2Proof.Machine
end

