-- ==== Sys2Proof/Laws/PerInstr.lean ====
section
/-! SUPPORT. The statement made of each instruction: its row of opcode_table.json. -/

namespace Sys2Proof.Laws.TableRow

/-- The format, mask and match that the instruction's row of opcode_table.json gives (30_encoding.md R71, R72, R76, R77). -/
def row : Instr → Format × Byte × Byte
  | .nop => (.cmd, 0b0011, 0b0000)
  | .enc _ => (.cmd, 0b0011, 0b0001)
  | .dec _ => (.cmd, 0b0011, 0b0010)
  | .reserved => (.cmd, 0b0011, 0b0011)
  | .roundA _ => (.roundSelect, 0b0011, 0b0000)
  | .roundB _ => (.roundSelect, 0b0011, 0b0001)
  | .roundAinv _ => (.roundSelect, 0b0011, 0b0010)
  | .roundBinv _ => (.roundSelect, 0b0011, 0b0011)
  | .f _ => (.datapath, 0b1111, 0b0000)
  | .g _ _ _ => (.datapath, 0b1111, 0b0001)
  | .ginv _ _ _ => (.datapath, 0b1111, 0b0010)
  | .split _ => (.datapath, 0b1111, 0b0011)
  | .join _ => (.datapath, 0b1111, 0b0100)

/-- The instruction's word has its row's format, its row's bits under the mask, and no bit outside the mask. -/
def Statement (i : Instr) : Prop :=
  (encode i).format = (row i).1 ∧ (encode i).code &&& (row i).2.1 = (row i).2.2 ∧
    (encode i).code &&& ~~~(row i).2.1 = 0

theorem nop : Statement .nop := by simp [Statement, encode, row]
theorem enc (form : DriverForm) : Statement (.enc form) := by simp [Statement, encode, row]
theorem dec (form : DriverForm) : Statement (.dec form) := by simp [Statement, encode, row]
theorem reserved : Statement .reserved := by simp [Statement, encode, row]
theorem roundA (form : RoundForm) : Statement (.roundA form) := by simp [Statement, encode, row]
theorem roundB (form : RoundForm) : Statement (.roundB form) := by simp [Statement, encode, row]
theorem roundAinv (form : RoundForm) : Statement (.roundAinv form) := by simp [Statement, encode, row]
theorem roundBinv (form : RoundForm) : Statement (.roundBinv form) := by simp [Statement, encode, row]
theorem f (x : Byte) : Statement (.f x) := by simp [Statement, encode, row]
theorem g (r : Nat) (key : Key) (w : Word) : Statement (.g r key w) := by simp [Statement, encode, row]
theorem ginv (r : Nat) (key : Key) (w : Word) : Statement (.ginv r key w) := by simp [Statement, encode, row]
theorem split (b : Block) : Statement (.split b) := by simp [Statement, encode, row]
theorem join (st : Words) : Statement (.join st) := by simp [Statement, encode, row]

end Sys2Proof.Laws.TableRow
end

