-- ==== Sys2Proof/Laws/Tick.lean ====
section
/-! SUPPORT. What a tick and a step can do, said once. -/

namespace Sys2Proof.Machine

/-- The four values of the command port (30_encoding.md R71). -/
theorem cmd_cases (c : Cmd) : c = 0#2 ∨ c = 1#2 ∨ c = 2#2 ∨ c = 3#2 := by
  revert c; decide

@[simp] theorem decode_cmdWord_nop : decode (cmdWord 0#2) = .ok .nop := rfl
@[simp] theorem decode_cmdWord_enc : decode (cmdWord 1#2) = .ok (.enc .ports) := rfl
@[simp] theorem decode_cmdWord_dec : decode (cmdWord 2#2) = .ok (.dec .ports) := rfl
@[simp] theorem decode_cmdWord_reserved : decode (cmdWord 3#2) = .ok .reserved := rfl
@[simp] theorem decode_selWord_a : decode (selWord 0#2) = .ok (.roundA .engine) := rfl
@[simp] theorem decode_selWord_b : decode (selWord 1#2) = .ok (.roundB .engine) := rfl
@[simp] theorem decode_selWord_ainv : decode (selWord 2#2) = .ok (.roundAinv .engine) := rfl
@[simp] theorem decode_selWord_binv : decode (selWord 3#2) = .ok (.roundBinv .engine) := rfl

/-- The error bits that a command presented in RUN leaves (43_block_drivers.md R130). -/
def commandErrors (c : Cmd) (e : Engine) : Engine :=
  { e with errIll := e.errIll || c == 0b11, errBusy := e.errBusy || c == 0b01 || c == 0b10 }

@[simp] theorem commandErrors_nop (e : Engine) : commandErrors 0#2 e = e := by simp [commandErrors]
@[simp] theorem commandErrors_enc (e : Engine) : commandErrors 1#2 e = { e with errBusy := true } := by
  simp [commandErrors]
@[simp] theorem commandErrors_dec (e : Engine) : commandErrors 2#2 e = { e with errBusy := true } := by
  simp [commandErrors]
@[simp] theorem commandErrors_reserved (e : Engine) : commandErrors 3#2 e = { e with errIll := true } := by
  simp [commandErrors]

/-- The error of each command, by the pre-tick phase (60_exceptions.md R150). -/
@[simp] theorem commandError?_nop (ph : Phase) : commandError? ph 0#2 = none := by simp [commandError?]
@[simp] theorem commandError?_reserved (ph : Phase) : commandError? ph 3#2 = some .illegalCommand := rfl
@[simp] theorem commandError?_enc_run : commandError? .run 1#2 = some .commandWhileBusy := rfl
@[simp] theorem commandError?_dec_run : commandError? .run 2#2 = some .commandWhileBusy := rfl
theorem commandError?_start {ph : Phase} {c : Cmd} (h : ph ≠ .run) (hc : c ≠ 0b11) : commandError? ph c = none := by
  exact (if_neg hc).trans (if_neg fun h' => h h'.2)

/-- The rule that a round select names (30_encoding.md R72). -/
def selectedRule (F : FTable) (sel : Sel) : Nat → Key → Words → Words :=
  if sel = 0b00 then ruleA F else if sel = 0b01 then ruleB F else if sel = 0b10 then ruleAinv F else ruleBinv F

@[simp] theorem selectedRule_a (F : FTable) : selectedRule F 0#2 = ruleA F := rfl
@[simp] theorem selectedRule_b (F : FTable) : selectedRule F 1#2 = ruleB F := rfl
@[simp] theorem selectedRule_ainv (F : FTable) : selectedRule F 2#2 = ruleAinv F := rfl
@[simp] theorem selectedRule_binv (F : FTable) : selectedRule F 3#2 = ruleBinv F := rfl

/-- The last round of a direction (43_block_drivers.md R133). -/
def lastRound (dir : Bool) : BitVec 6 := if dir then 1 else 32

/-- The engine after a tick without reset in RUN, field by field (43_block_drivers.md R130, R133). -/
def afterRunTick (F : FTable) (c : Cmd) (e : Engine) : Engine where
  w := selectedRule F e.sel e.rnd.toNat e.k e.w
  k := e.k
  rnd := if e.rnd = lastRound e.dir then e.rnd else if e.dir then e.rnd - 1 else e.rnd + 1
  dir := e.dir
  phase := if e.rnd = lastRound e.dir then .done else .run
  errIll := e.errIll || c == 0b11
  errBusy := e.errBusy || c == 0b01 || c == 0b10

@[simp] theorem afterRunTick_w (F : FTable) (c : Cmd) (e : Engine) :
    (afterRunTick F c e).w = selectedRule F e.sel e.rnd.toNat e.k e.w := rfl
@[simp] theorem afterRunTick_k (F : FTable) (c : Cmd) (e : Engine) : (afterRunTick F c e).k = e.k := rfl
@[simp] theorem afterRunTick_dir (F : FTable) (c : Cmd) (e : Engine) : (afterRunTick F c e).dir = e.dir := rfl
@[simp] theorem afterRunTick_errIll (F : FTable) (c : Cmd) (e : Engine) :
    (afterRunTick F c e).errIll = (e.errIll || c == 0b11) := rfl
@[simp] theorem afterRunTick_errBusy (F : FTable) (c : Cmd) (e : Engine) :
    (afterRunTick F c e).errBusy = (e.errBusy || c == 0b01 || c == 0b10) := rfl
theorem afterRunTick_rnd (F : FTable) (c : Cmd) (e : Engine) : (afterRunTick F c e).rnd =
    if e.rnd = lastRound e.dir then e.rnd else if e.dir then e.rnd - 1 else e.rnd + 1 := rfl
theorem afterRunTick_phase (F : FTable) (c : Cmd) (e : Engine) : (afterRunTick F c e).phase =
    if e.rnd = lastRound e.dir then .done else .run := rfl

/-- The round tick after the command decode, in RUN, gives these fields. -/
theorem sequenceRound_commandErrors (F : FTable) (c : Cmd) (e : Engine) (h : e.phase = .run) :
    sequenceRound { commandErrors c e with w := selectedRule F e.sel e.rnd.toNat e.k e.w } = afterRunTick F c e := by
  rcases sequenceRound_cases { commandErrors c e with w := selectedRule F e.sel e.rnd.toNat e.k e.w } with
    ⟨hl, he⟩ | ⟨hl, he⟩
  · have hl' : e.rnd = lastRound e.dir := hl
    rw [he]
    simp [afterRunTick, commandErrors, ← hl']
  · have hl' : ¬e.rnd = lastRound e.dir := hl
    rw [he]
    simp [afterRunTick, commandErrors, hl', h]

/-- The reference configuration's dispatch is `exec` (00_scope.md R9). -/
theorem execOf_referenceConfig : execOf referenceConfig = exec := by
  funext i s; cases i <;> rfl

/-- The reference configuration's step is `step`. -/
theorem stepOf_referenceConfig : stepOf referenceConfig = step := by
  funext s; rw [stepOf, execOf_referenceConfig, step]

/-- A configuration matters to an instruction through its table only. -/
theorem execOf_congr {c c' : Config} (h : c.FTABLE = c'.FTABLE) : execOf c = execOf c' := by
  funext i s
  cases i <;> simp only [execOf, execEncOf, execDecOf, execRoundAOf, execRoundBOf, execRoundAinvOf, execRoundBinvOf, execFOf,
    execGOf, execGinvOf, h]

variable {c : Config}

/-- The command decode in RUN records an error at most. -/
theorem execWord_cmdWord_run (q : Cmd) (s : State) (h : s.engine.phase = .run) :
    execWord (execOf c) (cmdWord q) s = .next
      ((s.withEngine (commandErrors q s.engine)).withMarks ((commandError? .run q).toList ++ s.faultMarks)) := by
  rcases cmd_cases q with rfl | rfl | rfl | rfl <;>
    simp [execWord, execOf, execNop, execEncOf, execDecOf, execReserved, startCommand, raise, h] <;> rfl

/-- The command decode in IDLE and DONE. -/
theorem execWord_cmdWord_ready (q : Cmd) (s : State) (h : s.engine.phase = .idle ∨ s.engine.phase = .done) :
    execWord (execOf c) (cmdWord q) s = .next
      (if q = 0b00 then s else if q = 0b01 then accept false s else if q = 0b10 then accept true s
      else (s.withEngine { s.engine with errIll := true }).recordFault .illegalCommand) := by
  rcases cmd_cases q with rfl | rfl | rfl | rfl <;> rcases h with h | h <;>
    simp [execWord, execOf, execNop, execEncOf, execDecOf, execReserved, startCommand, raise, h]

/-- The command decode with PHASE = 11 is stuck. -/
theorem execWord_cmdWord_unassigned (q : Cmd) (s : State) (h : s.engine.phase = .unassigned) :
    execWord (execOf c) (cmdWord q) s = .fault .stuckPhase := by
  rcases cmd_cases q with rfl | rfl | rfl | rfl <;>
    simp [execWord, execOf, execNop, execEncOf, execDecOf, execReserved, startCommand, h]

/-- The selected round row is the round tick with the selected rule. -/
theorem execWord_selWord (sel : Sel) (s : State) :
    execWord (execOf c) (selWord sel) s = roundTick sel (selectedRule c.FTABLE sel) s := by
  rcases cmd_cases sel with rfl | rfl | rfl | rfl <;>
    simp [execWord, execOf, execRoundAOf, execRoundBOf, execRoundAinvOf,
      execRoundBinvOf, roundRule]

/-- A tick with rst = 1 (70_reset_and_hazards.md R170). -/
theorem tick_reset {s : State} (h : s.ports.rst = true) : tick (execOf c) s = .next (resetEngine s) := by simp [tick, h]

/-- A tick without reset in IDLE or DONE (43_block_drivers.md R130). -/
theorem tick_ready {s : State} (hr : s.ports.rst = false) (h : s.engine.phase = .idle ∨ s.engine.phase = .done) :
    tick (execOf c) s = .next
      (if s.ports.cmd = 0b00 then s else if s.ports.cmd = 0b01 then accept false s
      else if s.ports.cmd = 0b10 then accept true s else (s.withEngine { s.engine with errIll := true }).recordFault .illegalCommand) := by
  rcases h with h | h <;> simp [tick, hr, execWord_cmdWord_ready, h]

/-- A tick without reset in RUN: the round tick, with the command's error bit (43_block_drivers.md R130, R133). -/
theorem tick_run {s : State} (hr : s.ports.rst = false) (h : s.engine.phase = .run) :
    tick (execOf c) s =
      if RoundInRange s.engine.rnd.toNat then .next ((s.withEngine (afterRunTick c.FTABLE s.ports.cmd s.engine)).withMarks
        ((commandError? .run s.ports.cmd).toList ++ s.faultMarks))
      else .refused (.roundOutOfRange s.engine.rnd.toNat) := by
  simp only [tick, hr, h, execWord_cmdWord_run _ s h, andThen_next, execWord_selWord, Bool.false_eq_true, if_false]
  rw [← sequenceRound_commandErrors _ _ _ h]
  simp only [roundTick, State.withMarks_engine, State.withEngine_engine, commandErrors, h, Engine.sel, if_true]
  rfl

/-- A tick without reset with PHASE = 11 is stuck (10_state.md R26). -/
theorem tick_unassigned {s : State} (hr : s.ports.rst = false) (h : s.engine.phase = .unassigned) :
    tick (execOf c) s = .fault .stuckPhase := by
  simp [tick, hr, execWord_cmdWord_unassigned, h]

/-- All that a tick can do. -/
theorem tick_cases {s t : State} (h : tick (execOf c) s = .next t) :
    (s.ports.rst = true ∧ t = resetEngine s) ∨
    (s.ports.rst = false ∧ (s.engine.phase = .idle ∨ s.engine.phase = .done) ∧
      ((s.ports.cmd = 0b00 ∧ t = s) ∨ (s.ports.cmd = 0b01 ∧ t = accept false s) ∨
        (s.ports.cmd = 0b10 ∧ t = accept true s) ∨
        (s.ports.cmd = 0b11 ∧ t = (s.withEngine { s.engine with errIll := true }).recordFault .illegalCommand))) ∨
    (s.ports.rst = false ∧ s.engine.phase = .run ∧ RoundInRange s.engine.rnd.toNat ∧
      t = (s.withEngine (afterRunTick c.FTABLE s.ports.cmd s.engine)).withMarks
        ((commandError? .run s.ports.cmd).toList ++ s.faultMarks)) := by
  cases hr : s.ports.rst with
  | true => rw [tick_reset hr] at h; cases h; exact .inl ⟨rfl, rfl⟩
  | false =>
    by_cases hp : s.engine.phase = .idle ∨ s.engine.phase = .done
    · rw [tick_ready hr hp] at h
      cases h
      refine .inr (.inl ⟨rfl, hp, ?_⟩)
      rcases cmd_cases s.ports.cmd with hc | hc | hc | hc <;> simp [hc]
    · cases hq : s.engine.phase with
      | idle => exact absurd (.inl hq) hp
      | done => exact absurd (.inr hq) hp
      | unassigned => rw [tick_unassigned hr hq] at h; cases h
      | run =>
        rw [tick_run hr hq] at h
        split at h
        · cases h; exact .inr (.inr ⟨rfl, rfl, ‹_›, rfl⟩)
        · cases h

/-- A function-level form goes on with one value returned and nothing else changed. -/
theorem execOf_call_cases {i : Instr} {s t : State} (hc : i.isCall = true) (h : execOf c i s = .next t) :
    ∃ v, t = s.observe (.returned v) := by
  have rule : ∀ {sel rule form}, (match form with | .engine => false | .call _ _ _ => true) = true →
      roundRule sel rule form s = .next t → ∃ v, t = s.observe (.returned v) := by
    intro sel rule form hf hx
    cases form with
    | engine => cases hf
    | call r key st => exact ⟨_, (inRound_eq_next.1 hx).2⟩
  cases i with
  | nop => cases hc
  | reserved => cases hc
  | enc form =>
    cases form with
    | ports => cases hc
    | call b key =>
      obtain ⟨b', -, rfl⟩ := (returnDriver_eq_next fun e hc => ⟨_, encryptBlock_error hc⟩).1 h
      exact ⟨_, rfl⟩
  | dec form =>
    cases form with
    | ports => cases hc
    | call b key =>
      obtain ⟨b', -, rfl⟩ := (returnDriver_eq_next fun e hc => ⟨_, decryptBlock_error hc⟩).1 h
      exact ⟨_, rfl⟩
  | roundA form => exact rule hc h
  | roundB form => exact rule hc h
  | roundAinv form => exact rule hc h
  | roundBinv form => exact rule hc h
  | f x => cases h; exact ⟨_, rfl⟩
  | g r key w => exact ⟨_, (inRound_eq_next.1 h).2⟩
  | ginv r key w => exact ⟨_, (inRound_eq_next.1 h).2⟩
  | split b => cases h; exact ⟨_, rfl⟩
  | join st => cases h; exact ⟨_, rfl⟩

/-- A call goes on with one value returned and nothing else changed. -/
theorem call_cases {w : InstrWord} {s t : State} (h : call (execOf c) w s = .next t) : ∃ v, t = s.observe (.returned v) := by
  unfold call at h
  split at h
  · split at h
    · exact execOf_call_cases ‹_› h
    · cases h
  · cases h

/-- All that a step can do: a tick, a read or a call. -/
theorem stepOf_cases {s t : State} (h : stepOf c s = .next t) :
    (s.host = [] ∧ tick (execOf c) (s.withPorts (idlePorts s.ports)) = .next t) ∨
    (∃ p rest, s.host = .tick p :: rest ∧ tick (execOf c) ((s.withHost rest).withPorts p) = .next t) ∨
    (∃ reg rest, s.host = .read reg :: rest ∧ readReg reg (s.withHost rest) = .next t) ∨
    (∃ w rest, s.host = .call w :: rest ∧ call (execOf c) w (s.withHost rest) = .next t) := by
  unfold stepOf hostStep at h
  cases hh : s.host with
  | nil => rw [hh] at h; exact .inl ⟨rfl, h⟩
  | cons x rest =>
    rw [hh] at h
    cases x with
    | tick p => exact .inr (.inl ⟨p, rest, rfl, h⟩)
    | read reg => exact .inr (.inr (.inl ⟨reg, rest, rfl, h⟩))
    | call w => exact .inr (.inr (.inr ⟨w, rest, rfl, h⟩))

theorem stepOf_tick {s : State} {p : PortIn} {rest : List HostStmt} (h : s.host = .tick p :: rest) :
    stepOf c s = tick (execOf c) ((s.withHost rest).withPorts p) := by simp [stepOf, hostStep, h]

theorem stepOf_read {s : State} {reg : HostReg} {rest : List HostStmt} (h : s.host = .read reg :: rest) :
    stepOf c s = readReg reg (s.withHost rest) := by simp [stepOf, hostStep, h]

theorem stepOf_call {s : State} {w : InstrWord} {rest : List HostStmt} (h : s.host = .call w :: rest) :
    stepOf c s = call (execOf c) w (s.withHost rest) := by simp [stepOf, hostStep, h]

theorem stepOf_idle {s : State} (h : s.host = []) : stepOf c s = tick (execOf c) (s.withPorts (idlePorts s.ports)) := by
  simp [stepOf, hostStep, h]

/-- A step that is a tick with rst = 1. -/
theorem stepOf_tick_reset {s : State} {p : PortIn} {rest : List HostStmt} (h : s.host = .tick p :: rest)
    (hr : p.rst = true) : stepOf c s = .next (resetEngine ((s.withHost rest).withPorts p)) := by
  rw [stepOf_tick h, tick_reset (s := (s.withHost rest).withPorts p) hr]

/-- A step that is a tick without reset in IDLE or DONE. -/
theorem stepOf_tick_ready {s : State} {p : PortIn} {rest : List HostStmt} (h : s.host = .tick p :: rest)
    (hr : p.rst = false) (hp : s.engine.phase = .idle ∨ s.engine.phase = .done) :
    stepOf c s = .next
      (if p.cmd = 0b00 then (s.withHost rest).withPorts p
      else if p.cmd = 0b01 then accept false ((s.withHost rest).withPorts p)
      else if p.cmd = 0b10 then accept true ((s.withHost rest).withPorts p)
      else (((s.withHost rest).withPorts p).withEngine { s.engine with errIll := true }).recordFault .illegalCommand) := by
  rw [stepOf_tick h]
  exact tick_ready (s := (s.withHost rest).withPorts p) hr hp

/-- A step that is a tick without reset in RUN. -/
theorem stepOf_tick_run {s : State} {p : PortIn} {rest : List HostStmt} (h : s.host = .tick p :: rest)
    (hr : p.rst = false) (hp : s.engine.phase = .run) :
    stepOf c s =
      if RoundInRange s.engine.rnd.toNat then
        .next ((((s.withHost rest).withPorts p).withEngine (afterRunTick c.FTABLE p.cmd s.engine)).withMarks
          ((commandError? .run p.cmd).toList ++ s.faultMarks))
      else .refused (.roundOutOfRange s.engine.rnd.toNat) := by
  rw [stepOf_tick h]
  exact tick_run (s := (s.withHost rest).withPorts p) hr hp

/-- A step that is a tick without reset with PHASE = 11. -/
theorem stepOf_tick_unassigned {s : State} {p : PortIn} {rest : List HostStmt} (h : s.host = .tick p :: rest)
    (hr : p.rst = false) (hp : s.engine.phase = .unassigned) : stepOf c s = .fault .stuckPhase := by
  rw [stepOf_tick h]
  exact tick_unassigned (s := (s.withHost rest).withPorts p) hr hp

/-! ### The same of `step`, the reference configuration's -/

theorem step_cases {s t : State} (h : step s = .next t) :
    (s.host = [] ∧ tick (execOf referenceConfig) (s.withPorts (idlePorts s.ports)) = .next t) ∨
    (∃ p rest, s.host = .tick p :: rest ∧ tick (execOf referenceConfig) ((s.withHost rest).withPorts p) = .next t) ∨
    (∃ reg rest, s.host = .read reg :: rest ∧ readReg reg (s.withHost rest) = .next t) ∨
    (∃ w rest, s.host = .call w :: rest ∧ call (execOf referenceConfig) w (s.withHost rest) = .next t) :=
  stepOf_cases (stepOf_referenceConfig ▸ h)

theorem step_tick {s : State} {p : PortIn} {rest : List HostStmt} (h : s.host = .tick p :: rest) :
    step s = tick (execOf referenceConfig) ((s.withHost rest).withPorts p) :=
  stepOf_referenceConfig ▸ stepOf_tick (c := referenceConfig) h

theorem step_read {s : State} {reg : HostReg} {rest : List HostStmt} (h : s.host = .read reg :: rest) :
    step s = readReg reg (s.withHost rest) :=
  stepOf_referenceConfig ▸ stepOf_read (c := referenceConfig) h

theorem step_call {s : State} {w : InstrWord} {rest : List HostStmt} (h : s.host = .call w :: rest) :
    step s = call (execOf referenceConfig) w (s.withHost rest) :=
  stepOf_referenceConfig ▸ stepOf_call (c := referenceConfig) h

theorem step_idle {s : State} (h : s.host = []) : step s = tick (execOf referenceConfig) (s.withPorts (idlePorts s.ports)) :=
  stepOf_referenceConfig ▸ stepOf_idle (c := referenceConfig) h

theorem step_tick_reset {s : State} {p : PortIn} {rest : List HostStmt} (h : s.host = .tick p :: rest)
    (hr : p.rst = true) : step s = .next (resetEngine ((s.withHost rest).withPorts p)) :=
  stepOf_referenceConfig ▸ stepOf_tick_reset (c := referenceConfig) h hr

theorem step_tick_ready {s : State} {p : PortIn} {rest : List HostStmt} (h : s.host = .tick p :: rest)
    (hr : p.rst = false) (hp : s.engine.phase = .idle ∨ s.engine.phase = .done) :
    step s = .next
      (if p.cmd = 0b00 then (s.withHost rest).withPorts p
      else if p.cmd = 0b01 then accept false ((s.withHost rest).withPorts p)
      else if p.cmd = 0b10 then accept true ((s.withHost rest).withPorts p)
      else (((s.withHost rest).withPorts p).withEngine { s.engine with errIll := true }).recordFault .illegalCommand) :=
  stepOf_referenceConfig ▸ stepOf_tick_ready (c := referenceConfig) h hr hp

theorem step_tick_run {s : State} {p : PortIn} {rest : List HostStmt} (h : s.host = .tick p :: rest)
    (hr : p.rst = false) (hp : s.engine.phase = .run) :
    step s =
      if RoundInRange s.engine.rnd.toNat then
        .next ((((s.withHost rest).withPorts p).withEngine (afterRunTick referenceConfig.FTABLE p.cmd s.engine)).withMarks
          ((commandError? .run p.cmd).toList ++ s.faultMarks))
      else .refused (.roundOutOfRange s.engine.rnd.toNat) :=
  stepOf_referenceConfig ▸ stepOf_tick_run (c := referenceConfig) h hr hp

theorem step_tick_unassigned {s : State} {p : PortIn} {rest : List HostStmt} (h : s.host = .tick p :: rest)
    (hr : p.rst = false) (hp : s.engine.phase = .unassigned) : step s = .fault .stuckPhase :=
  stepOf_referenceConfig ▸ stepOf_tick_unassigned (c := referenceConfig) h hr hp

/-- A function-level form of the reference configuration goes on with one value returned and nothing else changed. -/
theorem exec_call_cases {i : Instr} {s t : State} (hc : i.isCall = true) (h : exec i s = .next t) :
    ∃ v, t = s.observe (.returned v) :=
  execOf_call_cases (c := referenceConfig) hc (execOf_referenceConfig ▸ h)

end Sys2Proof.Machine
end

