-- ==== Sys2Proof/Laws/Runs.lean ====
section
/-! SUPPORT. Runs of several steps and sequences of several rounds, one at a time. -/

namespace Sys2Proof.Machine

@[simp] theorem steps_zero (s : State) : steps 0 s = .next s := rfl

/-- A run goes on after its first step, whatever a step is. -/
theorem iterate_succ_of_next {one : State → Result} {s t : State} (h : one s = .next t) (n : Nat) :
    iterate one (n + 1) s = iterate one n t := by
  rw [iterate, h, andThen_next]

theorem stepsOf_referenceConfig : stepsOf referenceConfig = steps := by
  funext n s; rw [stepsOf, stepOf_referenceConfig]

theorem steps_succ (n : Nat) (s : State) : steps (n + 1) s = andThen (step s) (steps n) := rfl

/-- A run goes on after its first step. -/
theorem steps_succ_of_next {s t : State} (h : step s = .next t) (n : Nat) : steps (n + 1) s = steps n t :=
  iterate_succ_of_next h n

theorem encryptRounds_succ (F : FTable) (key : Key) (n : Nat) (st : Words) :
    encryptRounds F key (n + 1) st = encryptRound F (n + 1) key (encryptRounds F key n st) := rfl

theorem decryptRounds_succ (F : FTable) (key : Key) (n : Nat) (st : Words) :
    decryptRounds F key (n + 1) st = decryptRounds F key n (decryptRound F (n + 1) key st) := rfl

@[simp] theorem tickStmts_nil : tickStmts [] = [] := rfl

@[simp] theorem tickStmts_cons (p : PortIn) (ps : List PortIn) : tickStmts (p :: ps) = .tick p :: tickStmts ps := rfl

end Sys2Proof.Machine
end

