-- ==== Sys2Proof/Tests/Slice0.lean ====
section
/-! SUPPORT. Tests of the model's own, with expected values from the tables of spec/, and one witness per obligation with
hypotheses: a concrete state and operands that meet them all. -/

namespace Sys2Proof.Tests

open Sys2Proof.Machine

/-! ### Helpers -/

/-- Keys K1, K0, KF and K2 of 95_test_vectors.md. -/
def k1 : Key := #v[0x00, 0x99, 0x88, 0x77, 0x66, 0x55, 0x44, 0x33, 0x22, 0x11]
def k0 : Key := #v[0x00, 0x00, 0x00, 0x00, 0x00, 0x00, 0x00, 0x00, 0x00, 0x00]
def kF : Key := #v[0xff, 0xff, 0xff, 0xff, 0xff, 0xff, 0xff, 0xff, 0xff, 0xff]
def k2 : Key := #v[0x01, 0x23, 0x45, 0x67, 0x89, 0xab, 0xcd, 0xef, 0x01, 0x23]

/-- The plaintext words of 95_test_vectors.md section 7.1. -/
def w0 : Words := ⟨0x3322, 0x1100, 0xddcc, 0xbbaa⟩

/-- An engine with key K1. -/
def engineAt (phase : Phase) (dir : Bool) (rnd : BitVec 6) (w : Words) : Engine :=
  ⟨w, k1, rnd, dir, phase, false, false⟩

/-- A state whose host has these statements to make. -/
def stateAt (e : Engine) (h : List HostStmt) : State := { State.reset with engine := e, host := h }

/-- A tick without reset that presents the known-answer operands. -/
def tickOf (c : Cmd) : PortIn := ⟨false, c, 0x33221100ddccbbaa, 0x00998877665544332211⟩

/-- A reset tick. -/
def resetTick : PortIn := ⟨true, 0b01, 0x33221100ddccbbaa, 0x00998877665544332211⟩

/-- The engine of a next state. -/
def engineOf : Result → Option Engine
  | .next s => some s.engine
  | .fault _ => none
  | .refused _ => none

/-- What the host obtained last in a next state. -/
def lastOf : Result → Option Observation
  | .next s => s.log.head?
  | .fault _ => none
  | .refused _ => none

/-- The fault of a step. -/
def faultOf : Result → Option Fault
  | .fault r => some r
  | .next _ => none
  | .refused _ => none

/-- The refusal of a step. -/
def refusalOf : Result → Option Refusal
  | .refused r => some r
  | .next _ => none
  | .fault _ => none

/-! ### Well-formedness: an ill-formed term for each check -/

theorem test_wf_enc_nine_bytes : (Instr.enc (.call 0 (List.replicate 9 0))).wellFormed = false := by decide
theorem test_wf_dec_eleven_bytes : (Instr.dec (.call 0 (List.replicate 11 0))).wellFormed = false := by decide
theorem test_wf_enc_ten_bytes : (Instr.enc (.call 0 (List.replicate 10 0))).wellFormed = true := by decide
theorem test_wf_roundA_zero : (Instr.roundA (.call 0 k1 w0)).wellFormed = false := by decide
theorem test_wf_roundB_33 : (Instr.roundB (.call 33 k1 w0)).wellFormed = false := by decide
theorem test_wf_roundAinv_zero : (Instr.roundAinv (.call 0 k1 w0)).wellFormed = false := by decide
theorem test_wf_roundBinv_33 : (Instr.roundBinv (.call 33 k1 w0)).wellFormed = false := by decide
theorem test_wf_g_33 : (Instr.g 33 k1 0).wellFormed = false := by decide
theorem test_wf_ginv_zero : (Instr.ginv 0 k1 0).wellFormed = false := by decide

/-! ### Decoding: a word written out from 30_encoding.md for every constructor, and rejected words -/

theorem test_decode_nop : decode ⟨.cmd, 0b00000000, []⟩ = .ok .nop := by decide
theorem test_decode_enc : decode ⟨.cmd, 0b00000001, []⟩ = .ok (.enc .ports) := by decide
theorem test_decode_dec : decode ⟨.cmd, 0b00000010, []⟩ = .ok (.dec .ports) := by decide
theorem test_decode_reserved : decode ⟨.cmd, 0b00000011, []⟩ = .ok .reserved := by decide
theorem test_decode_roundA : decode ⟨.roundSelect, 0b00000000, []⟩ = .ok (.roundA .engine) := by decide
theorem test_decode_roundB : decode ⟨.roundSelect, 0b00000001, []⟩ = .ok (.roundB .engine) := by decide
theorem test_decode_roundAinv : decode ⟨.roundSelect, 0b00000010, []⟩ = .ok (.roundAinv .engine) := by decide
theorem test_decode_roundBinv : decode ⟨.roundSelect, 0b00000011, []⟩ = .ok (.roundBinv .engine) := by decide
theorem test_decode_f : decode ⟨.datapath, 0b00000000, [0x69]⟩ = .ok (.f 0x69) := by decide
theorem test_decode_g : decode ⟨.datapath, 0b00000001,
    [0x20, 0x00, 0x99, 0x88, 0x77, 0x66, 0x55, 0x44, 0x33, 0x22, 0x11, 0xab, 0xcd]⟩ = .ok (.g 32 k1 0xabcd) := by decide
theorem test_decode_ginv : decode ⟨.datapath, 0b00000010,
    [0x20, 0x00, 0x99, 0x88, 0x77, 0x66, 0x55, 0x44, 0x33, 0x22, 0x11, 0x8e, 0x2f]⟩ = .ok (.ginv 32 k1 0x8e2f) := by decide
theorem test_decode_split : decode ⟨.datapath, 0b00000011, [0x01, 0x23, 0x45, 0x67, 0x89, 0xab, 0xcd, 0xef]⟩ =
    .ok (.split 0x0123456789abcdef) := by decide
theorem test_decode_join : decode ⟨.datapath, 0b00000100, [0x25, 0x87, 0xca, 0xe2, 0x7a, 0x12, 0xd3, 0x00]⟩ =
    .ok (.join ⟨0x2587, 0xcae2, 0x7a12, 0xd300⟩) := by decide
theorem test_decode_enc_call_any_length : decode ⟨.cmd, 0b00000001,
    [0x33, 0x22, 0x11, 0x00, 0xdd, 0xcc, 0xbb, 0xaa, 0x01, 0x02]⟩ = .ok (.enc (.call 0x33221100ddccbbaa [0x01, 0x02])) := by
  decide
theorem test_decode_label_5 : decode ⟨.datapath, 0x5, []⟩ = .error (.noFunction 0x5) := by decide
theorem test_decode_label_f : decode ⟨.datapath, 0xF, []⟩ = .error (.noFunction 0xF) := by decide
theorem test_decode_f_needs_its_byte : decode ⟨.datapath, 0x0, []⟩ = .error (.operandCount 0) := by decide
theorem test_table_word_rows : [0, 1, 2, 3, 4, 5].map (decodeTableWord 8) =
    [some .nop, some (.enc .ports), some (.dec .ports), some .reserved, some (.join ⟨0, 0, 0, 0⟩), none] := by decide

/-! ### One step, with the values of 95_test_vectors.md -/

-- section 8, IDLE and cmd 00
theorem test_nop_idle : (engineOf (step (stateAt Engine.reset [.tick (tickOf 0b00)]))).map (fun e => e.status) = some 0x00 := by
  decide
-- section 8, RUN with RND = 32 and cmd 00; P1, ticks 32 and 33
theorem test_nop_last_round : (engineOf (step (stateAt
    (engineAt .run false 32 ⟨0x1adc, 0x60ee, 0xd300, 0x2587⟩) [.tick (tickOf 0b00)]))).map (fun e => (e.status, e.w)) =
    some (0x02, ⟨0x2587, 0xcae2, 0x7a12, 0xd300⟩) := by decide
-- P1, tick 1
theorem test_enc_accept : (engineOf (step (stateAt Engine.reset [.tick (tickOf 0b01)]))).map
    (fun e => (e.status, e.rnd, e.dir, e.w, e.k)) = some (0x01, 1, false, w0, k1) := by decide
-- section 1, the known-answer vector
theorem test_enc_function : lastOf (exec (.enc (.call 0x33221100ddccbbaa k1.toList)) State.reset) =
    some (.returned (.block 0x2587cae27a12d300)) := by decide +kernel
-- section 8, DONE and cmd 10; P2, tick 34
theorem test_dec_accept : (engineOf (step (stateAt (engineAt .done false 32 w0) [.tick (tickOf 0b10)]))).map
    (fun e => (e.status, e.rnd, e.dir)) = some (0x01, 32, true) := by decide
-- section 6, key K2
theorem test_dec_function : lastOf (exec (.dec (.call 0x0123456789abcdef k2.toList)) State.reset) =
    some (.returned (.block 0x52fd36242d7e556a)) := by decide +kernel
-- P3, tick 1
theorem test_reserved_idle : (engineOf (step (stateAt Engine.reset [.tick (tickOf 0b11)]))).map (fun e => e.status) =
    some 0x04 := by decide
-- section 8, RUN and cmd 11 on the last round
theorem test_reserved_last_round : (engineOf (step (stateAt
    (engineAt .run false 32 ⟨0x1adc, 0x60ee, 0xd300, 0x2587⟩) [.tick (tickOf 0b11)]))).map (fun e => (e.status, e.w)) =
    some (0x06, ⟨0x2587, 0xcae2, 0x7a12, 0xd300⟩) := by decide
-- P3, tick 8: a busy ENC does not sample its operands
theorem test_enc_busy : (engineOf (step (stateAt
    { engineAt .run false 6 ⟨0xb949, 0x820a, 0x47ee, 0x2d75⟩ with errIll := true }
    [.tick ⟨false, 0b01, 0, 0⟩]))).map (fun e => (e.status, e.rnd, e.w, e.k)) =
    some (0x0d, 7, ⟨0xf0e3, 0xdd90, 0x820a, 0x47ee⟩, k1) := by decide
-- P4, tick 12: rst = 1 overrides cmd = 01
theorem test_reset_overrides : (engineOf (step (stateAt
    (engineAt .run false 11 ⟨0xbe50, 0x4c52, 0xc391, 0x820b⟩) [.tick resetTick]))).map (fun e => e.status) = some 0x00 := by
  decide
-- section 4.1
theorem test_roundA_function : lastOf (exec (.roundA (.call 17 k1 w0)) State.reset) =
    some (.returned (.words ⟨0x3ee3, 0x8558, 0x1100, 0xddcc⟩)) := by decide
-- section 7.1, round 1
theorem test_roundA_tick : (engineOf (exec (.roundA .engine) (stateAt (engineAt .run false 1 w0) []))).map
    (fun e => (e.rnd, e.w)) = some (2, ⟨0xb004, 0x0baf, 0x1100, 0xddcc⟩) := by decide
-- section 4.1
theorem test_roundB_function : lastOf (exec (.roundB (.call 9 k1 w0)) State.reset) =
    some (.returned (.words ⟨0xbbaa, 0x4b81, 0x222b, 0xddcc⟩)) := by decide
-- section 7.1, round 25
theorem test_roundB_tick : (engineOf (exec (.roundB .engine)
    (stateAt (engineAt .run false 25 ⟨0x65a7, 0xdeaa, 0x1115, 0x45c0⟩) []))).map (fun e => (e.rnd, e.w)) =
    some (26, ⟨0x45c0, 0xe0f9, 0xbb14, 0x1115⟩) := by decide
-- section 4.2
theorem test_roundAinv_function : lastOf (exec (.roundAinv (.call 8 kF ⟨0xffff, 0xffff, 0xffff, 0xffff⟩)) State.reset) =
    some (.returned (.words ⟨0xc9b5, 0xffff, 0xffff, 0x0008⟩)) := by decide
-- section 7.2, round 1, the last
theorem test_roundAinv_tick : (engineOf (exec (.roundAinv .engine)
    (stateAt (engineAt .run true 1 ⟨0xb004, 0x0baf, 0x1100, 0xddcc⟩) []))).map (fun e => (e.phase, e.rnd, e.w)) =
    some (.done, 1, w0) := by decide
-- section 4.2
theorem test_roundBinv_function : lastOf (exec (.roundBinv (.call 1 k0 ⟨0, 0, 0, 0⟩)) State.reset) =
    some (.returned (.words ⟨0x364a, 0x364b, 0, 0⟩)) := by decide
-- section 7.2, round 32, the first
theorem test_roundBinv_tick : (engineOf (exec (.roundBinv .engine)
    (stateAt (engineAt .run true 32 ⟨0x2587, 0xcae2, 0x7a12, 0xd300⟩) []))).map (fun e => (e.phase, e.rnd, e.w)) =
    some (.run, 31, ⟨0x1adc, 0x60ee, 0xd300, 0x2587⟩) := by decide
-- section 2
theorem test_f_69 : lastOf (exec (.f 0x69) State.reset) = some (.returned (.byte 0x00)) := by decide
theorem test_f_7f : lastOf (exec (.f 0x7f) State.reset) = some (.returned (.byte 0x1d)) := by decide
-- section 3.1: r = 3, where the key index wraps from 9 to 0, and r = 32
theorem test_g_wrap : lastOf (exec (.g 3 k1 0xffff) State.reset) = some (.returned (.word 0x061e)) := by decide
theorem test_g_32 : lastOf (exec (.g 32 k1 0xabcd) State.reset) = some (.returned (.word 0x8e2f)) := by decide
-- section 3.2
theorem test_ginv_7 : lastOf (exec (.ginv 7 k2 0xbeef) State.reset) = some (.returned (.word 0x48dd)) := by decide
theorem test_ginv_wrap : lastOf (exec (.ginv 3 k1 0x061e) State.reset) = some (.returned (.word 0xffff)) := by decide
-- section 6
theorem test_split : lastOf (exec (.split 0x0123456789abcdef) State.reset) =
    some (.returned (.words ⟨0x0123, 0x4567, 0x89ab, 0xcdef⟩)) := by decide
theorem test_join : lastOf (exec (.join ⟨0x2587, 0xcae2, 0x7a12, 0xd300⟩) State.reset) =
    some (.returned (.block 0x2587cae27a12d300)) := by decide
-- section 6, the key-length errors
theorem test_key_length_9 : faultOf (exec (.enc (.call 0 (List.replicate 9 0))) State.reset) =
    some (.invalidKeyLength 9) := by decide
theorem test_key_length_11 : faultOf (exec (.dec (.call 0 (List.replicate 11 0))) State.reset) =
    some (.invalidKeyLength 11) := by decide

/-! ### Witnesses: the hypotheses of each obligation can be met together -/

theorem witness_DecodeAfterEncodeIsIdentity :
    (Instr.g 1 k1 0xffff).WellFormed ∧ (Instr.ginv 32 k1 0).WellFormed ∧ (Instr.roundA (.call 1 k1 w0)).WellFormed ∧
    (Instr.roundBinv (.call 32 k1 w0)).WellFormed ∧ (Instr.enc (.call 0 k1.toList)).WellFormed ∧
    (Instr.dec .ports).WellFormed := by decide

theorem witness_EncodeAfterDecodeIsIdentity :
    decode ⟨.datapath, 0x4, [0, 0, 0, 0, 0, 0, 0, 1]⟩ = .ok (.join ⟨0, 0, 0, 1⟩) ∧
    decode ⟨.cmd, 0x3, []⟩ = .ok .reserved := by decide

theorem witness_UnassignedCodesAreRejected :
    5 ≤ (5 : Byte).toNat ∧ 5 ≤ (255 : Byte).toNat ∧ 4 ≤ (4 : Byte).toNat ∧ 4 ≤ (255 : Byte).toNat := by decide

theorem witness_RoundSelectFollowsSchedule :
    ∀ r ∈ ([1, 8, 9, 16, 17, 24, 25, 32] : List (BitVec 6)), ∀ d, RoundInRange (engineAt .run d r w0).rnd.toNat := by decide

theorem witness_StepRunsTheDecodedInstruction :
    (∃ s : State, s.host = [.tick (tickOf 0b01)] ∧ (tickOf 0b01).rst = false ∧
      decode (cmdWord (tickOf 0b01).cmd) = .ok (.enc .ports) ∧ s.engine.phase ≠ .run) ∧
    (∃ s : State, s.host = [.tick (tickOf 0b10)] ∧ (tickOf 0b10).rst = false ∧
      decode (cmdWord (tickOf 0b10).cmd) = .ok (.dec .ports) ∧ s.engine.phase = .run ∧
      decode (selWord s.engine.sel) = .ok (.roundBinv .engine)) ∧
    (∃ s : State, s.host = [.call ⟨.datapath, 0x0, [0xff]⟩] ∧
      decode ⟨.datapath, 0x0, [0xff]⟩ = .ok (.f 0xff) ∧ (Instr.f 0xff).isCall = true) ∧
    (∃ s : State, s.host = []) :=
  ⟨⟨stateAt Engine.reset [.tick (tickOf 0b01)], by decide⟩,
    ⟨stateAt (engineAt .run true 32 w0) [.tick (tickOf 0b10)], by decide⟩,
    ⟨stateAt Engine.reset [.call ⟨.datapath, 0x0, [0xff]⟩], by decide⟩, ⟨State.reset, by decide⟩⟩

theorem witness_PlacedWordIsWhatStepRuns :
    State.reset.engine.phase ≠ .run ∧ decodeTableWord 8 0 = some .nop ∧ decodeTableWord 8 3 = some .reserved ∧
    decodeTableWord 8 4 = some (.join ⟨0, 0, 0, 0⟩) := by decide

theorem witness_ResetTickFromAnyState :
    ∃ s : State, s.host = [.tick resetTick] ∧ resetTick.rst = true ∧ s.engine.phase = .unassigned :=
  ⟨stateAt (engineAt .unassigned true 0 w0) [.tick resetTick], by decide⟩

theorem witness_NopChangesNothing :
    (∃ s : State, s.engine.phase = .idle ∧ s.host = [.tick (tickOf 0b00)]) ∧
    (∃ s : State, s.engine.phase = .done ∧ s.host = [.tick (tickOf 0b00)]) ∧
    (∃ s : State, s.engine.phase = .run ∧ s.host = [.tick (tickOf 0b00)] ∧
      decode (selWord s.engine.sel) = .ok (.roundB .engine)) ∧
    (tickOf 0b00).rst = false ∧ (tickOf 0b00).cmd = 0b00 :=
  ⟨⟨stateAt Engine.reset [.tick (tickOf 0b00)], by decide⟩,
    ⟨stateAt (engineAt .done false 32 w0) [.tick (tickOf 0b00)], by decide⟩,
    ⟨stateAt (engineAt .run false 32 w0) [.tick (tickOf 0b00)], by decide⟩, by decide⟩

theorem witness_AcceptStepWritesTheOperation :
    (∃ s : State, s.engine.phase = .idle) ∧ (∃ s : State, s.engine.phase = .done) :=
  ⟨⟨State.reset, by decide⟩, ⟨stateAt (engineAt .done true 1 w0) [], by decide⟩⟩

theorem witness_IllegalCommandSetsOnlyErrIll :
    (∃ s : State, s.engine.phase = .idle ∧ s.host = [.tick (tickOf 0b11)]) ∧
    (∃ s : State, s.engine.phase = .run ∧ s.host = [.tick (tickOf 0b11)]) ∧
    (∃ s : State, s.engine.phase = .done ∧ s.host = [.tick (tickOf 0b11)]) ∧
    (tickOf 0b11).rst = false ∧ (tickOf 0b11).cmd = 0b11 :=
  ⟨⟨stateAt Engine.reset [.tick (tickOf 0b11)], by decide⟩,
    ⟨stateAt (engineAt .run false 32 w0) [.tick (tickOf 0b11)], by decide⟩,
    ⟨stateAt (engineAt .done false 32 w0) [.tick (tickOf 0b11)], by decide⟩, by decide⟩

theorem witness_CommandWhileBusySetsOnlyErrBusy :
    (∃ s : State, s.engine.phase = .run ∧ s.host = [.tick (tickOf 0b01)]) ∧
    (∃ s : State, s.engine.phase = .run ∧ s.host = [.tick (tickOf 0b10)]) ∧
    (tickOf 0b01).rst = false ∧ (tickOf 0b10).rst = false :=
  ⟨⟨stateAt (engineAt .run false 1 w0) [.tick (tickOf 0b01)], by decide⟩,
    ⟨stateAt (engineAt .run true 1 w0) [.tick (tickOf 0b10)], by decide⟩, by decide⟩

theorem witness_OnlyResetClearsErrorBits :
    ∃ s t : State, step s = .next t ∧ s.engine.errIll = true ∧ t.engine.errIll = false ∧ s.engine.errBusy = true ∧
      t.engine.errBusy = false ∧ s.nextIsReset = true :=
  ⟨stateAt { engineAt .done false 32 w0 with errIll := true, errBusy := true } [.tick resetTick], _, rfl, by decide⟩

theorem witness_FaultMarksRecordEveryError :
    (∃ s t : State, step s = .next t ∧ s.nextError? = some .illegalCommand ∧ s.nextPorts? = some (tickOf 0b11) ∧
      s.engine.phase = .run ∧ t.faultMarks = [.illegalCommand]) ∧
    (∃ s t : State, step s = .next t ∧ s.nextError? = some .commandWhileBusy ∧ s.nextPorts? = some (tickOf 0b10) ∧
      s.engine.phase = .run ∧ t.faultMarks = [.commandWhileBusy]) ∧
    (∃ s t : State, step s = .next t ∧ s.faultMarks = [.illegalCommand] ∧ s.nextIsReset = true ∧
      t.faultMarks = [.illegalCommand]) :=
  ⟨⟨stateAt (engineAt .run false 1 w0) [.tick (tickOf 0b11)], _, rfl, by decide⟩,
    ⟨stateAt (engineAt .run false 1 w0) [.tick (tickOf 0b10)], _, rfl, by decide⟩,
    ⟨(stateAt Engine.reset [.tick resetTick]).withMarks [.illegalCommand], _, rfl, by decide⟩⟩

theorem witness_EveryStepKeepsErrorBitsMarked :
    ∃ s t : State, s.BitsMarked ∧ s.engine.errIll = true ∧ step s = .next t ∧ t.engine.errBusy = true :=
  ⟨(stateAt { engineAt .run false 1 w0 with errIll := true } [.tick (tickOf 0b01)]).withMarks [.illegalCommand], _,
    ⟨by decide, by decide⟩, by decide, rfl, by decide⟩

theorem witness_NoErrorRecordedCoversTheWholeRun :
    ∃ s t : State, s.BitsMarked ∧ steps 2 s = .next t ∧ t.NoErrorRecorded ∧ t.engine.phase = .run :=
  ⟨stateAt Engine.reset [.tick resetTick, .tick (tickOf 0b01)], _, ⟨by decide, by decide⟩, rfl, by decide⟩

theorem witness_WrongKeyLengthFailsFast :
    ([] : List Byte).length ≠ 10 ∧ (List.replicate 9 (0 : Byte)).length ≠ 10 ∧
    (List.replicate 11 (0 : Byte)).length ≠ 10 := by decide

theorem witness_round_numbers :
    RoundInRange 1 ∧ RoundInRange 8 ∧ RoundInRange 9 ∧ RoundInRange 17 ∧ RoundInRange 25 ∧ RoundInRange 32 ∧
    ¬RoundInRange 0 ∧ ¬RoundInRange 33 := by decide

theorem witness_GinvKeyIndicesReverseThoseOfG : RoundInRange 1 ∧ RoundInRange 32 := by decide

theorem witness_GAndGinvAreInverse : RoundInRange 1 ∧ RoundInRange 32 := by decide

theorem witness_RoundNumberDomain : State.reset.Inv ∧ RoundInRange 1 ∧ RoundInRange 32 ∧ ¬RoundInRange 33 :=
  ⟨⟨by decide, by decide, by decide⟩, by decide⟩

theorem witness_RoundARule :
    ∀ r ∈ ([1, 8, 17, 24] : List (BitVec 6)), (engineAt .run false r w0).phase = .run ∧
      (engineAt .run false r w0).dir = false ∧ (1 ≤ r.toNat ∧ r.toNat ≤ 8 ∨ 17 ≤ r.toNat ∧ r.toNat ≤ 24) := by decide

theorem witness_RoundBRule :
    ∀ r ∈ ([9, 16, 25, 32] : List (BitVec 6)), (engineAt .run false r w0).phase = .run ∧
      (engineAt .run false r w0).dir = false ∧ (9 ≤ r.toNat ∧ r.toNat ≤ 16 ∨ 25 ≤ r.toNat ∧ r.toNat ≤ 32) := by decide

theorem witness_RoundAinvRule :
    ∀ r ∈ ([1, 8, 17, 24] : List (BitVec 6)), (engineAt .run true r w0).phase = .run ∧
      (engineAt .run true r w0).dir = true ∧ (1 ≤ r.toNat ∧ r.toNat ≤ 8 ∨ 17 ≤ r.toNat ∧ r.toNat ≤ 24) := by decide

theorem witness_RoundBinvRule :
    ∀ r ∈ ([9, 16, 25, 32] : List (BitVec 6)), (engineAt .run true r w0).phase = .run ∧
      (engineAt .run true r w0).dir = true ∧ (9 ≤ r.toNat ∧ r.toNat ≤ 16 ∨ 25 ≤ r.toNat ∧ r.toNat ≤ 32) := by decide

theorem witness_RoundRowRunsOnlyWhenSelected :
    State.reset.engine.phase ≠ .unassigned ∧ RoundInRange State.reset.engine.rnd.toNat ∧
    (engineAt .run true 32 w0).sel ≠ 0b00 ∧ (engineAt .run true 32 w0).sel = 0b11 := by decide

theorem witness_InverseRulesUndoForwardRules : RoundInRange 1 ∧ RoundInRange 32 := by decide

theorem witness_RoundConstantIsOnlyXored : RoundInRange 1 ∧ RoundInRange 31 ∧ 1 % 5 = 31 % 5 := by decide

theorem witness_EncryptBlockRunsRoundsAscending :
    k1.toList.length = 10 ∧ (List.replicate 9 (0 : Byte)).length ≠ 10 := by decide

theorem witness_DecryptBlockRunsRoundsDescending :
    k1.toList.length = 10 ∧ (List.replicate 11 (0 : Byte)).length ≠ 10 := by decide

theorem witness_DecryptUndoesEncrypt : k1.toList.length = 10 := by decide

theorem witness_EveryRunTickAppliesOneRound :
    (∀ d, ∀ r ∈ ([1, 31, 32] : List (BitVec 6)), (stateAt (engineAt .run d r w0) [.tick (tickOf 0b11)]).Inv) ∧
    (∀ d, ∀ r ∈ ([1, 31, 32] : List (BitVec 6)),
      (stateAt (engineAt .run d r w0) [.tick (tickOf 0b11)]).engine.phase = .run) ∧
    (tickOf 0b11).rst = false := by
  refine ⟨fun d r hr => ⟨by simp [stateAt, engineAt], ?_, by simp [stateAt, engineAt]⟩, by decide, by decide⟩
  revert d r; decide

theorem witness_ResultAppearsAndIsHeld :
    (∃ s : State, s.Inv ∧ s.host = [.tick (tickOf 0b01)] ∧ s.engine.phase = .run ∧ s.engine.dir = true ∧ s.engine.rnd = 1) ∧
    (∃ s : State, s.Inv ∧ s.host = [.tick (tickOf 0b01)] ∧ s.engine.phase = .run ∧ s.engine.dir = false ∧ s.engine.rnd = 32) ∧
    (∃ s : State, s.Inv ∧ s.host = [.tick (tickOf 0b11)] ∧ s.engine.phase = .done) ∧
    (∃ s : State, s.Inv ∧ s.host = [.tick (tickOf 0b00)] ∧ s.engine.phase = .done) :=
  ⟨⟨stateAt (engineAt .run true 1 w0) [.tick (tickOf 0b01)], ⟨by decide, by decide, by decide⟩, by decide⟩,
    ⟨stateAt (engineAt .run false 32 w0) [.tick (tickOf 0b01)], ⟨by decide, by decide, by decide⟩, by decide⟩,
    ⟨stateAt (engineAt .done true 1 w0) [.tick (tickOf 0b11)], ⟨by decide, by decide, by decide⟩, by decide⟩,
    ⟨stateAt (engineAt .done false 32 w0) [.tick (tickOf 0b00)], ⟨by decide, by decide, by decide⟩, by decide⟩⟩

theorem witness_OperationTakesThirtyTwoRoundTicks :
    ∃ (s : State) (ps : List PortIn), s.engine.phase = .idle ∧ s.host = .tick (tickOf 0b10) :: tickStmts ps ++ [] ∧
      (tickOf 0b10).rst = false ∧ (tickOf 0b10).cmd = 0b10 ∧ ps.length = 32 ∧ NoReset ps :=
  ⟨stateAt Engine.reset (.tick (tickOf 0b10) :: tickStmts (List.replicate 32 (tickOf 0b11))),
    List.replicate 32 (tickOf 0b11), by decide⟩

theorem witness_NoResidueOfAnEarlierOperation :
    ∃ (s s' : State) (ps : List PortIn), s.engine.phase = .idle ∧ s'.engine.phase = .done ∧ s.engine.w ≠ s'.engine.w ∧
      s.host = tickStmts (tickOf 0b01 :: ps) ∧ s'.host = tickStmts (tickOf 0b01 :: ps) ∧ (tickOf 0b01).rst = false :=
  ⟨stateAt Engine.reset (tickStmts [tickOf 0b01, tickOf 0b11]),
    stateAt (engineAt .done true 1 w0) (tickStmts [tickOf 0b01, tickOf 0b11]), [tickOf 0b11], by decide⟩

theorem witness_HeldCommandStartsThenIsBusy :
    ∃ s : State, s.engine.phase = .idle ∧ s.host = [.tick (tickOf 0b01), .tick (tickOf 0b01)] ∧
      (tickOf 0b01).rst = false ∧ (tickOf 0b01).cmd = 0b01 ∧
    ∃ s : State, s.engine.phase = .done ∧ s.host = [.tick (tickOf 0b10), .tick (tickOf 0b10)] ∧
      (tickOf 0b10).rst = false ∧ (tickOf 0b10).cmd = 0b10 :=
  ⟨stateAt Engine.reset [.tick (tickOf 0b01), .tick (tickOf 0b01)], by decide, by decide, by decide, by decide,
    stateAt (engineAt .done true 1 w0) [.tick (tickOf 0b10), .tick (tickOf 0b10)], by decide⟩

theorem witness_BlockOutReads :
    (∃ s : State, s.host = [.read .blockOut, .read .blockOut] ∧ s.engine.phase = .done) ∧
    (∃ s : State, s.host = [.read .blockOut] ∧ s.engine.phase = .idle) ∧
    (∃ s : State, s.host = [.read .blockOut] ∧ s.engine.phase = .run) :=
  ⟨⟨stateAt (engineAt .done false 32 w0) [.read .blockOut, .read .blockOut], by decide⟩,
    ⟨stateAt Engine.reset [.read .blockOut], by decide⟩,
    ⟨stateAt (engineAt .run false 1 w0) [.read .blockOut], by decide⟩⟩

theorem witness_StatusRegisterFields :
    ∃ s : State, s.host = [.read .status] ∧ s.engine.phase ≠ .unassigned :=
  ⟨stateAt (engineAt .run false 1 w0) [.read .status], by decide⟩

theorem witness_HostRegistersAndAccess :
    ∀ reg ∈ [HostReg.cmd, .blockIn, .keyIn], regAccess reg = .write ∧
      (stateAt Engine.reset [.read reg]).host = [.read reg] := by decide

theorem witness_EveryStepKeepsTheEngineLegal :
    (∃ s t : State, s.Inv ∧ step s = .next t ∧ s.engine.phase = .run ∧ t.engine.phase = .done) ∧
    (∃ s t : State, s.Inv ∧ step s = .next t ∧ s.engine.phase = .done ∧ t.engine.phase = .run) :=
  ⟨⟨stateAt (engineAt .run false 32 w0) [.tick (tickOf 0b00)], _, ⟨by decide, by decide, by decide⟩, rfl, by decide⟩,
    ⟨stateAt (engineAt .done true 1 w0) [.tick (tickOf 0b10)], _, ⟨by decide, by decide, by decide⟩, rfl, by decide⟩⟩

theorem witness_EveryTickCompletes :
    (∃ s : State, s.Inv ∧ s.nextPorts? = some (tickOf 0b11)) ∧
    (∃ s : State, s.Inv ∧ s.host = [] ∧ s.nextPorts? = some (idlePorts s.ports)) :=
  ⟨⟨stateAt (engineAt .run true 1 w0) [.tick (tickOf 0b11)], ⟨by decide, by decide, by decide⟩, by decide⟩,
    ⟨State.reset, ⟨by decide, by decide, by decide⟩, by decide⟩⟩

theorem witness_WhoWritesTheEngineRegisters :
    (∃ s t : State, step s = .next t ∧ t.engine.k ≠ s.engine.k ∧ t.engine.dir ≠ s.engine.dir) ∧
    (∃ s t : State, step s = .next t ∧ t.engine.w ≠ s.engine.w ∧ s.engine.phase = .run) ∧
    (∃ s t : State, step s = .next t ∧ s.nextPorts? = none) :=
  ⟨⟨stateAt Engine.reset [.tick (tickOf 0b10)], _, rfl, by decide⟩,
    ⟨stateAt (engineAt .run false 1 w0) [.tick (tickOf 0b00)], _, rfl, by decide⟩,
    ⟨stateAt Engine.reset [.read .status], _, rfl, by decide⟩⟩

theorem witness_FunctionCallsChangeNoRegister :
    (Instr.f 0x2c).isCall = true ∧ (Instr.roundA (.call 1 k1 w0)).isCall = true ∧
    (∃ t, exec (.f 0x2c) State.reset = .next t) ∧ (∃ t, exec (.split 0) State.reset = .next t) :=
  ⟨by decide, by decide, ⟨_, rfl⟩, ⟨_, rfl⟩⟩

theorem witness_UnassignedPhaseIsStuck :
    (∃ s : State, s.engine.phase = .unassigned ∧ s.nextPorts? = some (tickOf 0b01) ∧ (tickOf 0b01).rst = false) ∧
    (∃ s : State, s.engine.phase = .unassigned ∧ regAccess .status = .readOnly ∧ s.host = [.read .status]) ∧
    (∃ s : State, s.engine.phase = .unassigned ∧ s.nextPorts? = some resetTick ∧ resetTick.rst = true) ∧
    (∃ s t : State, step s = .next t ∧ t.engine.phase = .unassigned) :=
  ⟨⟨stateAt (engineAt .unassigned false 1 w0) [.tick (tickOf 0b01)], by decide⟩,
    ⟨stateAt (engineAt .unassigned false 1 w0) [.read .status], by decide⟩,
    ⟨stateAt (engineAt .unassigned false 1 w0) [.tick resetTick], by decide⟩,
    ⟨stateAt (engineAt .unassigned false 1 w0) [.call ⟨.datapath, 0x0, [0x2c]⟩], _, rfl, by decide⟩⟩

theorem witness_OnlyFunctionsAreCallable :
    decode ⟨.cmd, 0x1, []⟩ = .ok (.enc .ports) ∧ (Instr.enc .ports).isCall = false ∧
    decode ⟨.datapath, 0x5, []⟩ = .error (.noFunction 0x5) ∧
    (stateAt Engine.reset [.call ⟨.datapath, 0x5, []⟩]).host = [.call ⟨.datapath, 0x5, []⟩] := by decide

/-- One instance stops on a nine-byte key and the other goes on (log 10). -/
theorem test_stop_of_one_engine_leaves_the_other :
    (systemRun referenceConfig [0, 1] [.next (stateAt Engine.reset [.call (encode (.enc (.call 0 (List.replicate 9 0))))]),
      .next (stateAt Engine.reset [.tick (tickOf 0b01)])]).map (fun o => (faultOf o, (engineOf o).map (·.phase))) =
      [(some (.invalidKeyLength 9), none), (none, some .run)] := by decide

/-- A table that is not the published one, and a configuration with it: the identity. -/
def identityConfig : Config := ⟨id, 1, Nat.le_refl 1, 0⟩

-- R90 and R100 by hand with F(x) = x and a zero key: g2 = 02^01 = 03, g3 = 03^02 = 01, g4 = 01^03 = 02, g5 = 02^01 = 03
theorem test_f_of_another_table : lastOf (execOf identityConfig (.f 0x2c) State.reset) = some (.returned (.byte 0x2c)) := by
  decide
theorem test_g_of_another_table : lastOf (execOf identityConfig (.g 1 k0 0x0102) State.reset) =
    some (.returned (.word 0x0203)) := by decide

theorem witness_FBoxLookupAndCornerCases : referenceConfig.FTablePublished := rfl

theorem witness_FBoxIsABijection : identityConfig.FTableBijective := Function.bijective_id

theorem witness_FTableIsAParameter :
    referenceConfig.FTablePublished ∧ k1.toList.length = 10 ∧ RoundInRange 1 ∧ RoundInRange 32 :=
  ⟨rfl, by decide⟩

theorem witness_FTableReachesOnlyTheWords :
    (∃ s t : State, step s = .next t ∧ s.nextPorts? = some (tickOf 0b00) ∧ s.engine.phase = .run ∧ s.nextIsReset = false) ∧
    (∃ s t : State, step s = .next t ∧ s.nextPorts? = some (idlePorts s.ports) ∧ s.engine.phase = .idle) :=
  ⟨⟨stateAt (engineAt .run false 1 w0) [.tick (tickOf 0b00)], _, rfl, by decide⟩, ⟨State.reset, _, rfl, by decide⟩⟩

theorem witness_InstancesStartAfterTheirOwnReset :
    0 < referenceConfig.N_INSTANCES ∧ 0 < (Config.mk fTable 2 (by decide) 0).N_INSTANCES ∧
    1 < (Config.mk fTable 2 (by decide) 0).N_INSTANCES := by decide

end Sys2Proof.Tests
end

section
/-! STATUS as the host reads it (10_state.md R30): its bits, and what a read of it does. -/

namespace Sys2Proof.Machine

/-- STATUS is built one flag at a time onto the hardwired zeros. -/
theorem Engine.status_eq_concat (e : Engine) :
    e.status = ((((0#4).concat e.errBusy).concat e.errIll).concat e.done).concat e.busy := rfl

/-- The bits of STATUS, lowest first; a bit beyond the four flags is 0. -/
theorem Engine.getLsbD_status (e : Engine) (i : Nat) :
    e.status.getLsbD i = [e.busy, e.done, e.errIll, e.errBusy].getD i false := by
  rw [Engine.status_eq_concat]
  match i with
  | 0 | 1 | 2 | 3 | _ + 4 => simp

theorem Engine.busy_eq_true_iff (e : Engine) : e.busy = true ↔ e.phase = .run := by simp [Engine.busy]

theorem Engine.done_eq_true_iff (e : Engine) : e.done = true ↔ e.phase = .done := by simp [Engine.done]

theorem Engine.status_upper_nibble (e : Engine) : e.status.extractLsb' 4 4 = 0 := by
  refine BitVec.eq_of_getLsbD_eq fun i _ => ?_
  simp [Engine.getLsbD_status, Nat.add_comm 4 i]

/-- A read of STATUS hands the value over and changes nothing, in each of the three assigned phases. -/
theorem readStatus_of_assigned {s : State} (h : s.engine.phase ≠ .unassigned) :
    readStatus s = .next (s.observe (.status s.engine.status)) := by
  unfold readStatus
  cases hp : s.engine.phase with
  | idle | run | done => rfl
  | unassigned => exact absurd hp h

/-- Settles O50: each bit by the list of STATUS's bits, and the read by the rule for a read of STATUS. -/
theorem statusRegisterFields : Obligations.StatusRegisterFields := by
  refine ⟨fun e => ⟨?busy, ?done, ?errIll, ?errBusy, e.status_upper_nibble⟩, fun s rest hhost hphase => ?read⟩
  case busy => rw [e.getLsbD_status]; exact e.busy_eq_true_iff
  case done => rw [e.getLsbD_status]; exact e.done_eq_true_iff
  case errIll => exact e.getLsbD_status 2
  case errBusy => exact e.getLsbD_status 3
  case read => rw [step_read hhost]; exact readStatus_of_assigned (s := s.withHost rest) hphase

end Sys2Proof.Machine
end

section
/-! Which round numbers are refused (41_g_permutation.md R106): by the functions of a round number and by the round tick. -/

namespace Sys2Proof.Machine

theorem inRound_of_inRange {r : Nat} {v : Value} {s : State} (h : RoundInRange r) :
    inRound r v s = .next (s.observe (.returned v)) := if_pos h

theorem inRound_of_not_inRange {r : Nat} {v : Value} {s : State} (h : ¬RoundInRange r) :
    inRound r v s = .refused (.roundOutOfRange r) := if_neg h

/-- A function of a round number is refused for it exactly outside [1,32], and completes inside. -/
theorem inRound_domain (r : Nat) (v : Value) (s : State) :
    (inRound r v s = .refused (.roundOutOfRange r) ↔ ¬RoundInRange r) ∧
    (RoundInRange r → ∃ t, inRound r v s = .next t) := by
  refine ⟨⟨fun h hr => ?_, inRound_of_not_inRange⟩, fun hr => ⟨_, inRound_of_inRange hr⟩⟩
  rw [inRound_of_inRange hr] at h
  cases h

/-- A round tick with RND in [1,32] is not refused for a round number, whatever row is asked for and in every phase. -/
theorem roundTick_ne_roundOutOfRange (sel : Sel) (rule : Nat → Key → Words → Words) {s : State}
    (h : RoundInRange s.engine.rnd.toNat) (r : Nat) : roundTick sel rule s ≠ .refused (.roundOutOfRange r) := by
  unfold roundTick
  cases s.engine.phase with
  | idle | done | unassigned => nofun
  | run =>
    by_cases hs : s.engine.sel = sel
    · simp only [if_pos h, if_pos hs]
      nofun
    · simp only [if_pos h, if_neg hs]
      nofun

/-- Settles O30: a function of a round number by the rule for its domain, a round row by the round tick, whose round number
is RND and in range in a legal engine. -/
theorem roundNumberDomain : Obligations.RoundNumberDomain := by
  intro s key w st
  refine ⟨fun r => ?functions, fun hs r => ?ticks⟩
  case functions =>
    have domain := fun v => inRound_domain r v s
    simp only [List.forall_mem_cons]
    exact ⟨domain _, domain _, domain _, domain _, domain _, domain _, nofun⟩
  case ticks =>
    have inRange := fun sel rule => roundTick_ne_roundOutOfRange sel rule hs.rnd r
    simp only [List.forall_mem_cons]
    exact ⟨inRange _ _, inRange _ _, inRange _ _, inRange _ _, nofun⟩

end Sys2Proof.Machine
end

section
/-! The key indices of G and Ginv without the cyclic steps, and the two permutations as the spec's four sub-steps
(41_g_permutation.md R100 to R104). -/

namespace Sys2Proof.Machine

theorem jUp_mod (j : Nat) : jUp (j % 10) = (j + 1) % 10 := Nat.mod_add_mod j 10 1

/-- A step down undoes a step up, also across the wrap from 0 to 9 (00_scope.md R13). -/
theorem jDown_succ_mod (j : Nat) : jDown ((j + 1) % 10) = j % 10 := by
  unfold jDown
  omega

/-- A sub-step sees the residue of its key index only. -/
theorem gStep_mod (F : FTable) (key : Key) (j : Nat) (a b : Byte) : gStep F key (j % 10) a b = gStep F key j a b := by
  simp [gStep]

/-- The sub-step values of G in round `r`, each from the two before it (R100). -/
theorem g_eq_subSteps (F : FTable) (r : Nat) (key : Key) (w : Word) : g F r key w =
    let g0 := hiByte w
    let g1 := loByte w
    let g2 := gStep F key (4 * (r - 1)) g1 g0
    let g3 := gStep F key (4 * (r - 1) + 1) g2 g1
    let g4 := gStep F key (4 * (r - 1) + 2) g3 g2
    let g5 := gStep F key (4 * (r - 1) + 3) g4 g3
    wordOf g4 g5 := by
  simp only [g, jG, jUp_mod, gStep_mod]

/-- The sub-step values of Ginv in round `r`, each from the two above it (R103). -/
theorem gInv_eq_subSteps (F : FTable) (r : Nat) (key : Key) (w : Word) : gInv F r key w =
    let g4 := hiByte w
    let g5 := loByte w
    let g3 := gStep F key (4 * (r - 1) + 3) g4 g5
    let g2 := gStep F key (4 * (r - 1) + 2) g3 g4
    let g1 := gStep F key (4 * (r - 1) + 1) g2 g3
    let g0 := gStep F key (4 * (r - 1)) g1 g2
    wordOf g0 g1 := by
  simp only [gInv, jGinv, jDown_succ_mod, gStep_mod]

theorem exec_g {r : Nat} {key : Key} {w : Word} {s : State} :
    exec (.g r key w) s = inRound r (.word (g referenceConfig.FTABLE r key w)) s := rfl

theorem exec_ginv {r : Nat} {key : Key} {w : Word} {s : State} :
    exec (.ginv r key w) s = inRound r (.word (gInv referenceConfig.FTABLE r key w)) s := rfl

/-- Settles O26: the domain of the round number by the rule for a function of it, the value by G's four sub-steps. -/
theorem gComputesFourSubSteps : Obligations.GComputesFourSubSteps := by
  intro r key w s K g0 g1 g2 g3 g4 g5
  -- the statement writes `gStep` and its key read at `Fin.ofNat 10` out
  have value : g referenceConfig.FTABLE r key w = g4 ++ g5 := g_eq_subSteps ..
  refine ⟨fun hr => ?_, fun hr => exec_g.trans (inRound_of_not_inRange hr), rfl, rfl⟩
  rw [exec_g, inRound_of_inRange hr, value]

/-- Settles O27: the domain of the round number by the rule for a function of it, the value by Ginv's four sub-steps. -/
theorem ginvComputesFourSubSteps : Obligations.GinvComputesFourSubSteps := by
  intro r key w s K g4 g5 g3 g2 g1 g0
  -- as for G, with `gStep` written out
  have value : gInv referenceConfig.FTABLE r key w = g0 ++ g1 := gInv_eq_subSteps ..
  refine ⟨fun hr => ?_, fun hr => exec_ginv.trans (inRound_of_not_inRange hr), rfl, rfl⟩
  rw [exec_ginv, inRound_of_inRange hr, value]

end Sys2Proof.Machine
end

section
/-! The four round rules in both their forms (42_round_rules.md R110 to R113): which row the engine's round selects, and what
the round tick of that row does. -/

namespace Sys2Proof.Machine

theorem exec_roundA {form : RoundForm} {s : State} :
    exec (.roundA form) s = roundRule 0b00 (ruleA referenceConfig.FTABLE) form s := rfl

theorem exec_roundB {form : RoundForm} {s : State} :
    exec (.roundB form) s = roundRule 0b01 (ruleB referenceConfig.FTABLE) form s := rfl

theorem exec_roundAinv {form : RoundForm} {s : State} :
    exec (.roundAinv form) s = roundRule 0b10 (ruleAinv referenceConfig.FTABLE) form s := rfl

theorem exec_roundBinv {form : RoundForm} {s : State} :
    exec (.roundBinv form) s = roundRule 0b11 (ruleBinv referenceConfig.FTABLE) form s := rfl

theorem roundInRange_iff {r : Nat} : RoundInRange r ↔ 1 ≤ r ∧ r ≤ 32 := Iff.rfl

/-- The round constant of RND is RND itself, widened (30_encoding.md R74). -/
theorem roundConst_toNat (rnd : BitVec 6) : roundConst rnd.toNat = rnd.zeroExtend 16 := BitVec.ofNat_toNat 16 rnd

/-- The rounds 1-8 and 17-24 select A or Ainv, by DIR (30_encoding.md R72). -/
theorem Engine.sel_of_roundsA {e : Engine}
    (h : 1 ≤ e.rnd.toNat ∧ e.rnd.toNat ≤ 8 ∨ 17 ≤ e.rnd.toNat ∧ e.rnd.toNat ≤ 24) :
    e.sel = if e.dir then 0b10 else 0b00 := by
  have bit : ∀ rnd : BitVec 6, (1 ≤ rnd.toNat ∧ rnd.toNat ≤ 8 ∨ 17 ≤ rnd.toNat ∧ rnd.toNat ≤ 24) →
      (rnd - 1).extractLsb' 3 1 = 0 := by decide
  rw [Engine.sel, bit e.rnd h]
  cases e.dir <;> rfl

/-- The rounds 9-16 and 25-32 select B or Binv, by DIR (30_encoding.md R72). -/
theorem Engine.sel_of_roundsB {e : Engine}
    (h : 9 ≤ e.rnd.toNat ∧ e.rnd.toNat ≤ 16 ∨ 25 ≤ e.rnd.toNat ∧ e.rnd.toNat ≤ 32) :
    e.sel = if e.dir then 0b11 else 0b01 := by
  have bit : ∀ rnd : BitVec 6, (9 ≤ rnd.toNat ∧ rnd.toNat ≤ 16 ∨ 25 ≤ rnd.toNat ∧ rnd.toNat ≤ 32) →
      (rnd - 1).extractLsb' 3 1 = 1 := by decide
  rw [Engine.sel, bit e.rnd h]
  cases e.dir <;> rfl

/-- RND and PHASE after a round in RUN: the last round of the direction keeps RND and ends the operation, every other one
steps RND (43_block_drivers.md R133). -/
theorem sequenceRound_of_run {e : Engine} (hp : e.phase = .run) : sequenceRound e = { e with
    rnd := if e.rnd = lastRound e.dir then lastRound e.dir else if e.dir then e.rnd - 1 else e.rnd + 1
    phase := if e.rnd = lastRound e.dir then .done else .run } := by
  rcases sequenceRound_cases e with ⟨last, he⟩ | ⟨notLast, he⟩
  · have last : e.rnd = lastRound e.dir := last
    rw [he, if_pos last, if_pos last, ← last]
  · have notLast : e.rnd ≠ lastRound e.dir := notLast
    rw [he, if_neg notLast, if_neg notLast, ← hp]

section
variable {sel : Sel} {rule : Nat → Key → Words → Words} {s : State}

/-- A round rule as a function, inside [1,32]. -/
theorem roundRule_call_of_inRange {r : Nat} {key : Key} {st : Words} (h : RoundInRange r) :
    roundRule sel rule (.call r key st) s = .next (s.observe (.returned (.words (rule r key st)))) :=
  inRound_of_inRange h

/-- A round rule as a function, outside [1,32]. -/
theorem roundRule_call_of_not_inRange {r : Nat} {key : Key} {st : Words} (h : ¬RoundInRange r) :
    roundRule sel rule (.call r key st) s = .refused (.roundOutOfRange r) :=
  inRound_of_not_inRange h

/-- The round tick of the row that the engine selects: the rule on the pre-round words, and the round sequenced. -/
theorem roundRule_engine_of_selected (hp : s.engine.phase = .run) (hr : RoundInRange s.engine.rnd.toNat)
    (hs : s.engine.sel = sel) : roundRule sel rule .engine s = .next (s.withEngine { s.engine with
      w := rule s.engine.rnd.toNat s.engine.k s.engine.w
      rnd := if s.engine.rnd = lastRound s.engine.dir then lastRound s.engine.dir
        else if s.engine.dir then s.engine.rnd - 1 else s.engine.rnd + 1
      phase := if s.engine.rnd = lastRound s.engine.dir then .done else .run }) := by
  refine roundTick_eq_next.2 ⟨hp, hr, hs, congrArg s.withEngine ?_⟩
  rw [sequenceRound_of_run]
  exact hp

end

/-- Settles O31: the function by its domain, the tick by the round tick of the selected row; 32 is no round of A. -/
theorem roundARule : Obligations.RoundARule := by
  refine fun s => ⟨fun r key st hr => exec_roundA.trans (roundRule_call_of_inRange hr),
    fun r key st hr => exec_roundA.trans (roundRule_call_of_not_inRange hr), rfl, fun hp hd hr => ?tick⟩
  have selected : s.engine.sel = 0b00 := by rw [Engine.sel_of_roundsA hr, hd]; rfl
  have notLast : s.engine.rnd ≠ lastRound false := fun h => by simp [h, lastRound] at hr
  rw [exec_roundA, roundRule_engine_of_selected hp (roundInRange_iff.2 (by omega)) selected, hd, if_neg notLast,
    if_neg notLast, ← hp, ← roundConst_toNat]
  rfl

/-- Settles O32: the function by its domain, the tick by the round tick of the selected row, which may be the last. -/
theorem roundBRule : Obligations.RoundBRule := by
  refine fun s => ⟨fun r key st hr => exec_roundB.trans (roundRule_call_of_inRange hr),
    fun r key st hr => exec_roundB.trans (roundRule_call_of_not_inRange hr), rfl, fun hp hd hr => ?tick⟩
  have selected : s.engine.sel = 0b01 := by rw [Engine.sel_of_roundsB hr, hd]; rfl
  rw [exec_roundB, roundRule_engine_of_selected hp (roundInRange_iff.2 (by omega)) selected, hd, ← roundConst_toNat]
  rfl

/-- Settles O33: the function by its domain, the tick by the round tick of the selected row, which may be the last. -/
theorem roundAinvRule : Obligations.RoundAinvRule := by
  refine fun s => ⟨fun r key st hr => exec_roundAinv.trans (roundRule_call_of_inRange hr),
    fun r key st hr => exec_roundAinv.trans (roundRule_call_of_not_inRange hr), rfl, fun hp hd hr => ?tick⟩
  have selected : s.engine.sel = 0b10 := by rw [Engine.sel_of_roundsA hr, hd]; rfl
  rw [exec_roundAinv, roundRule_engine_of_selected hp (roundInRange_iff.2 (by omega)) selected, hd, ← roundConst_toNat]
  rfl

/-- Settles O34: the function by its domain, the tick by the round tick of the selected row; 1 is no round of Binv. -/
theorem roundBinvRule : Obligations.RoundBinvRule := by
  refine fun s => ⟨fun r key st hr => exec_roundBinv.trans (roundRule_call_of_inRange hr),
    fun r key st hr => exec_roundBinv.trans (roundRule_call_of_not_inRange hr), rfl, fun hp hd hr => ?tick⟩
  have selected : s.engine.sel = 0b11 := by rw [Engine.sel_of_roundsB hr, hd]; rfl
  have notLast : s.engine.rnd ≠ lastRound true := fun h => by simp [h, lastRound] at hr
  rw [exec_roundBinv, roundRule_engine_of_selected hp (roundInRange_iff.2 (by omega)) selected, hd, if_neg notLast,
    if_neg notLast, ← hp, ← roundConst_toNat]
  rfl

end Sys2Proof.Machine
end

section
/-! The block drivers as functions (43_block_drivers.md R120 to R126): the four words of a block, and the 32 rounds of each
driver as a fold over the round numbers. -/

namespace Sys2Proof.Machine

theorem exec_split {b : Block} {s : State} : exec (.split b) s = returnValue (.words (splitBlock b)) s := rfl

theorem exec_join {st : Words} {s : State} : exec (.join st) s = returnValue (.block (joinBlock st)) s := rfl

/-- Settles O38: SPLIT returns `splitBlock`, whose four fields R120 names. -/
theorem splitGivesTheFourWords : Obligations.SplitGivesTheFourWords :=
  fun _ _ => ⟨exec_split, rfl, rfl⟩

/-- Settles O39: JOIN returns `joinBlock`, the concatenation of R121. -/
theorem joinConcatenatesTheFourWords : Obligations.JoinConcatenatesTheFourWords :=
  fun _ _ => ⟨exec_join, rfl, rfl⟩

/-- The rounds of rule A are those of the schedule (R126). -/
theorem isA_eq_true_iff (r : Nat) : isA r = true ↔ 1 ≤ r ∧ r ≤ 8 ∨ 17 ≤ r ∧ r ≤ 24 := by simp [isA]

section
variable (F : FTable) (key : Key)

theorem encryptRound_eq_ite (r : Nat) (st : Words) : encryptRound F r key st =
    if 1 ≤ r ∧ r ≤ 8 ∨ 17 ≤ r ∧ r ≤ 24 then ruleA F r key st else ruleB F r key st := by
  simp only [encryptRound, isA_eq_true_iff]

theorem decryptRound_eq_ite (r : Nat) (st : Words) : decryptRound F r key st =
    if 1 ≤ r ∧ r ≤ 8 ∨ 17 ≤ r ∧ r ≤ 24 then ruleAinv F r key st else ruleBinv F r key st := by
  simp only [decryptRound, isA_eq_true_iff]

/-- The encryption visits the rounds 1, 2, ..., n in ascending order (R123). -/
theorem encryptRounds_eq_foldl (n : Nat) (st : Words) : encryptRounds F key n st =
    (List.range' 1 n).foldl (fun st r => encryptRound F r key st) st := by
  induction n with
  | zero => rfl
  | succ n ih =>
    rw [encryptRounds_succ, ih, List.range'_1_concat, List.foldl_concat, Nat.add_comm 1 n]

/-- The decryption visits the rounds n, n-1, ..., 1 in descending order, not renumbered (R124). -/
theorem decryptRounds_eq_foldl (n : Nat) (st : Words) : decryptRounds F key n st =
    (List.range' 1 n).reverse.foldl (fun st r => decryptRound F r key st) st := by
  induction n generalizing st with
  | zero => rfl
  | succ n ih =>
    rw [decryptRounds_succ, ih, List.range'_1_concat, List.reverse_concat, List.foldl_cons, Nat.add_comm 1 n]

end

theorem checkKey_of_length_ne {key : List Byte} (h : key.length ≠ 10) :
    checkKey key = .error (.invalidKeyLength key.length) := if_neg h

section
variable {b : Block} {key : List Byte} {s : State}

theorem exec_enc_call : exec (.enc (.call b key)) s = returnDriver (encryptBlock referenceConfig.FTABLE b key) s := rfl

theorem exec_dec_call : exec (.dec (.call b key)) s = returnDriver (decryptBlock referenceConfig.FTABLE b key) s := rfl

/-- ENC as a function returns the encrypted block, where the key has ten bytes (R123). -/
theorem exec_enc_call_of_length (h : key.length = 10) : exec (.enc (.call b key)) s =
    .next (s.observe (.returned (.block (encryptWith referenceConfig.FTABLE b (keyOfList key))))) := by
  rw [exec_enc_call, encryptBlock_of_length h]
  rfl

/-- DEC as a function returns the decrypted block, where the key has ten bytes (R124). -/
theorem exec_dec_call_of_length (h : key.length = 10) : exec (.dec (.call b key)) s =
    .next (s.observe (.returned (.block (decryptWith referenceConfig.FTABLE b (keyOfList key))))) := by
  rw [exec_dec_call, decryptBlock_of_length h]
  rfl

/-- ENC as a function raises InvalidKeyLength on every other key (60_exceptions.md R151). -/
theorem exec_enc_call_of_length_ne (h : key.length ≠ 10) :
    exec (.enc (.call b key)) s = .fault (.invalidKeyLength key.length) := by
  rw [exec_enc_call, encryptBlock, checkKey_of_length_ne h]
  rfl

/-- DEC as a function raises InvalidKeyLength on every other key (60_exceptions.md R151). -/
theorem exec_dec_call_of_length_ne (h : key.length ≠ 10) :
    exec (.dec (.call b key)) s = .fault (.invalidKeyLength key.length) := by
  rw [exec_dec_call, decryptBlock, checkKey_of_length_ne h]
  rfl

end

/-- Settles O41: the encrypted block's rounds are the fold over the ascending round numbers. -/
theorem encryptBlockRunsRoundsAscending : Obligations.EncryptBlockRunsRoundsAscending := by
  refine fun b key s => ⟨fun h => ?_, exec_enc_call_of_length_ne, decode_cmdWord_enc⟩
  simp only [exec_enc_call_of_length h, encryptWith, encryptRounds_eq_foldl, encryptRound_eq_ite]
  rfl

/-- Settles O42: the decrypted block's rounds are the fold over the descending round numbers. -/
theorem decryptBlockRunsRoundsDescending : Obligations.DecryptBlockRunsRoundsDescending := by
  refine fun b key s => ⟨fun h => ?_, exec_dec_call_of_length_ne, decode_cmdWord_dec⟩
  simp only [exec_dec_call_of_length h, decryptWith, decryptRounds_eq_foldl, decryptRound_eq_ite]
  rfl

end Sys2Proof.Machine
end

section
/-! The block drivers as the engine's ticks (43_block_drivers.md R131 to R134): the NOP tick, the accept step, the round tick
and the result that DONE holds. -/

namespace Sys2Proof.Machine

theorem execWord_of_decode {run : Instr → State → Result} {w : InstrWord} {i : Instr} (h : decode w = .ok i) (s : State) :
    execWord run w s = run i s := by simp only [execWord, h]

theorem exec_nop {s : State} : exec .nop s = execNop s := rfl

/-- NOP's command decode changes nothing, in each of the three assigned phases (R132). -/
theorem exec_nop_of_assigned {s : State} (h : s.engine.phase ≠ .unassigned) : exec .nop s = .next s := by
  rw [exec_nop, execNop]
  cases hp : s.engine.phase with
  | idle | run | done => rfl
  | unassigned => exact absurd hp h

/-- Outside RUN a command may start, unless PHASE is 11 (10_state.md R26). -/
theorem Phase.ready_of_ne {ph : Phase} (ha : ph ≠ .unassigned) (hr : ph ≠ .run) : ph = .idle ∨ ph = .done := by
  cases ph with
  | idle => exact .inl rfl
  | done => exact .inr rfl
  | run => exact absurd rfl hr
  | unassigned => exact absurd rfl ha

/-- A NOP tick in RUN is the selected round row and nothing else (R132, R133). -/
theorem tick_nop_run {s : State} (hr : s.ports.rst = false) (hc : s.ports.cmd = 0b00) (hp : s.engine.phase = .run) :
    tick exec s = execWord exec (selWord s.engine.sel) s := by
  have decoded : execWord exec (cmdWord s.ports.cmd) s = .next s := by
    rw [hc]
    exact (execWord_of_decode decode_cmdWord_nop s).trans (exec_nop_of_assigned (by simp [hp]))
  simp only [tick, hr, decoded, andThen_next, hp, Bool.false_eq_true, if_false]

/-- Settles O11: outside RUN by the rule for a tick there, in RUN by the rule for the NOP tick. -/
theorem nopChangesNothing : Obligations.NopChangesNothing := by
  refine fun s hs => ⟨exec_nop_of_assigned hs, fun p rest hhost hrst hcmd => ⟨fun hp => ?ready, fun j hp hj => ?run⟩⟩
  case ready => rw [step_tick_ready hhost hrst (Phase.ready_of_ne hs hp), if_pos hcmd]
  case run =>
    rw [step_tick hhost, execOf_referenceConfig]
    exact (tick_nop_run (s := (s.withHost rest).withPorts p) hrst hcmd hp).trans (execWord_of_decode hj _)

/-- ENC and DEC as commands are the start command with their direction. -/
theorem exec_ports (decrypt : Bool) (s : State) :
    exec (if decrypt then .dec .ports else .enc .ports) s = startCommand decrypt s := by cases decrypt <;> rfl

/-- Settles O12: a start command in IDLE or DONE is the accept step, whose fields the laws of `accept` give. -/
theorem acceptStepWritesTheOperation : Obligations.AcceptStepWritesTheOperation := by
  refine fun s hs decrypt => ⟨by cases decrypt <;> rfl, accept decrypt s, ?accepts, ?fields⟩
  case accepts => rw [exec_ports]; exact startCommand_eq_next.2 (.inl ⟨hs, rfl⟩)
  case fields =>
    have key : ∀ i : Fin 10, (accept decrypt s).engine.k.get i = s.ports.keyIn.extractLsb' (72 - 8 * i.val) 8 :=
      fun i => getElem_keyOfPort s.ports.keyIn i.val i.isLt
    exact ⟨rfl, rfl, rfl, rfl, key, rfl, rfl, rfl, rfl, rfl, rfl, rfl, rfl, rfl, rfl⟩

/-- Every tick without reset completes from a legal engine in RUN, whatever the command (R133). -/
theorem step_tick_run_of_inv {s : State} {p : PortIn} {rest : List HostStmt} (hs : s.Inv) (hp : s.engine.phase = .run)
    (hhost : s.host = .tick p :: rest) (hrst : p.rst = false) :
    step s = .next ((((s.withHost rest).withPorts p).withEngine (afterRunTick referenceConfig.FTABLE p.cmd s.engine)).withMarks
      ((commandError? .run p.cmd).toList ++ s.faultMarks)) := by
  rw [step_tick_run hhost hrst hp, if_pos hs.rnd]

section
variable {F : FTable} {c : Cmd} {e : Engine} {dir : Bool}

/-- The last round of the direction ends the operation and keeps RND (R133). -/
theorem afterRunTick_of_last (hd : e.dir = dir) (h : e.rnd = lastRound dir) :
    (afterRunTick F c e).phase = .done ∧ (afterRunTick F c e).rnd = lastRound dir := by
  subst hd
  rw [afterRunTick_phase, afterRunTick_rnd, if_pos h, if_pos h]
  exact ⟨rfl, h⟩

/-- Every other round stays in RUN and steps RND (R133). -/
theorem afterRunTick_of_not_last (hd : e.dir = dir) (h : e.rnd ≠ lastRound dir) :
    (afterRunTick F c e).phase = .run ∧ (afterRunTick F c e).rnd = if dir then e.rnd - 1 else e.rnd + 1 := by
  subst hd
  rw [afterRunTick_phase, afterRunTick_rnd, if_neg h, if_neg h]
  exact ⟨rfl, rfl⟩

end

/-- Settles O44: the tick is `afterRunTick`; its words by the four selects, RND and PHASE by whether the round is the last
of its direction. -/
theorem everyRunTickAppliesOneRound : Obligations.EveryRunTickAppliesOneRound := by
  refine fun s p rest hs hp hhost hrst => ⟨_, step_tick_run_of_inv hs hp hhost hrst, ?words,
    afterRunTick_of_last, afterRunTick_of_not_last, afterRunTick_of_last, afterRunTick_of_not_last,
    rfl, rfl, rfl, rfl, rfl, rfl, rfl, rfl, rfl⟩
  case words =>
    change selectedRule referenceConfig.FTABLE s.engine.sel _ _ _ = _
    rcases cmd_cases s.engine.sel with h | h | h | h <;> rw [h] <;> rfl

/-- The status outputs and `block_out` in DONE (10_state.md R29, R31). -/
theorem Engine.outputs_of_done {e : Engine} (h : e.phase = .done) :
    e.done = true ∧ e.busy = false ∧ e.blockOut? = some (joinBlock e.w) := by
  simp [Engine.done, Engine.busy, Engine.blockOut?, h]

/-- Settles O45: the last round makes PHASE DONE; in DONE, NOP keeps the engine and an illegal command sets its error bit
only. -/
theorem resultAppearsAndIsHeld : Obligations.ResultAppearsAndIsHeld := by
  refine fun s p rest hs hhost hrst => ⟨fun hp last => ?appears, fun hp hcmd => ?held⟩
  case appears =>
    have done := (afterRunTick_of_last (F := referenceConfig.FTABLE) (c := p.cmd) rfl last).1
    exact ⟨_, step_tick_run_of_inv hs hp hhost hrst, done, Engine.outputs_of_done done⟩
  case held =>
    obtain ⟨done, busy, out⟩ := Engine.outputs_of_done hp
    have ready := step_tick_ready hhost hrst (.inr hp)
    rcases hcmd with hc | hc <;> rw [hc] at ready <;> exact ⟨_, ready, hp, done, busy, rfl, out⟩

end Sys2Proof.Machine
end

section
/-! The three errors (60_exceptions.md R150 to R153): what the command decode and a driver called as a function raise, and a
tick that raises an error beside the same tick with no command. -/

namespace Sys2Proof.Machine

theorem exec_reserved {s : State} : exec .reserved s = execReserved s := rfl

/-- RESERVED raises IllegalCommand, in each of the three assigned phases (R152). -/
theorem exec_reserved_of_assigned {s : State} (h : s.engine.phase ≠ .unassigned) :
    exec .reserved s = raise .illegalCommand s := by
  rw [exec_reserved, execReserved]
  cases hp : s.engine.phase with
  | idle | run | done => rfl
  | unassigned => exact absurd hp h

theorem startCommand_of_run {dir : Bool} {s : State} (h : s.engine.phase = .run) :
    startCommand dir s = raise .commandWhileBusy s := by
  rw [startCommand, h]

/-- A start command reads its key from the port, so it never stops for a key's length (R151). -/
theorem startCommand_ne_invalidKeyLength (dir : Bool) (s : State) (n : Nat) :
    startCommand dir s ≠ .fault (.invalidKeyLength n) := by
  unfold startCommand
  cases s.engine.phase with
  | idle | run | done | unassigned => nofun

/-- Outside RUN the only command that raises an error is 11 (R150). -/
theorem eq_reserved_of_commandError? {ph : Phase} {q : Cmd} {c : ErrorCause} (hp : ph ≠ .run)
    (h : commandError? ph q = some c) : q = 0b11 ∧ c = .illegalCommand := by
  have hq : q = 0b11 := by
    by_contra hq
    rw [commandError?_start hp hq] at h
    cases h
  subst hq
  exact ⟨rfl, (Option.some.inj h).symm⟩

theorem commandError?_busy {q : Cmd} (h : q = 0b01 ∨ q = 0b10) : commandError? .run q = some .commandWhileBusy := by
  rcases h with rfl | rfl <;> rfl

/-- An error sets the bit of each command that raises it, and records its mark. -/
theorem raise_eq_commandErrors {q : Cmd} {c : ErrorCause} (h : commandError? .run q = some c) (s : State) :
    raise c s = .next ((s.withEngine (commandErrors q s.engine)).withMarks (c :: s.faultMarks)) := by
  rcases cmd_cases q with rfl | rfl | rfl | rfl
  · cases h
  · cases h; rw [commandErrors_enc]; rfl
  · cases h; rw [commandErrors_dec]; rfl
  · cases h; rw [commandErrors_reserved]; rfl

/-- In RUN the round is the same whatever the command: only the error bits tell the ticks apart. -/
theorem afterRunTick_eq_commandErrors (F : FTable) (q : Cmd) (e : Engine) :
    afterRunTick F q e = commandErrors q (afterRunTick F 0b00 e) := by
  simp [afterRunTick, commandErrors]

/-- A tick whose command raises an error is the tick with no command, and then the error, in every phase. With PHASE 11 both
are stuck. -/
theorem step_tick_of_commandError {s : State} {p : PortIn} {rest : List HostStmt} {c : ErrorCause}
    (hhost : s.host = .tick p :: rest) (hrst : p.rst = false) (herr : commandError? s.engine.phase p.cmd = some c) :
    step s = andThen (step (s.withHost (.tick { p with cmd := 0b00 } :: rest))) fun t => raise c (t.withPorts p) := by
  -- the tick with no command starts from the same engine
  have hnop : (s.withHost (.tick { p with cmd := 0b00 } :: rest)).host = .tick { p with cmd := 0b00 } :: rest := rfl
  by_cases hrun : s.engine.phase = .run
  · rw [hrun] at herr
    rw [step_tick_run hhost hrst hrun, step_tick_run hnop hrst hrun, herr, State.withHost_engine]
    by_cases hr : RoundInRange s.engine.rnd.toNat
    · rw [if_pos hr, if_pos hr, andThen_next, raise_eq_commandErrors herr, afterRunTick_eq_commandErrors]
      rfl
    · rw [if_neg hr, if_neg hr, andThen_refused]
  · obtain ⟨hcmd, rfl⟩ := eq_reserved_of_commandError? hrun herr
    by_cases hstuck : s.engine.phase = .unassigned
    · rw [step_tick_unassigned hhost hrst hstuck, step_tick_unassigned hnop hrst hstuck, andThen_fault]
    · have ready := Phase.ready_of_ne hstuck hrun
      rw [step_tick_ready hhost hrst ready, step_tick_ready hnop hrst ready, hcmd]
      rfl

/-- Settles O13: RESERVED raises IllegalCommand, and 11 is the command that does so in every phase. -/
theorem illegalCommandSetsOnlyErrIll : Obligations.IllegalCommandSetsOnlyErrIll := by
  refine fun s => ⟨exec_reserved_of_assigned, fun p rest hhost hrst hcmd => ?tick⟩
  have error : commandError? s.engine.phase p.cmd = some .illegalCommand := by rw [hcmd]; rfl
  exact step_tick_of_commandError hhost hrst error

/-- Settles O14: a start command in RUN raises CommandWhileBusy, in each direction, and so does its tick. -/
theorem commandWhileBusySetsOnlyErrBusy : Obligations.CommandWhileBusySetsOnlyErrBusy := by
  refine fun s hrun => ⟨(exec_ports false s).trans (startCommand_of_run hrun),
    (exec_ports true s).trans (startCommand_of_run hrun), fun p rest hhost hrst hcmd => ?tick⟩
  have error : commandError? s.engine.phase p.cmd = some .commandWhileBusy := by rw [hrun, commandError?_busy hcmd]
  exact step_tick_of_commandError hhost hrst error

/-- Settles O20: a call fails its key check, and the port forms are start commands, which check no key. -/
theorem wrongKeyLengthFailsFast : Obligations.WrongKeyLengthFailsFast :=
  fun s _ _ h => ⟨exec_enc_call_of_length_ne h, exec_dec_call_of_length_ne h,
    startCommand_ne_invalidKeyLength false s, startCommand_ne_invalidKeyLength true s⟩

end Sys2Proof.Machine
end

section
/-! The life of the two sticky error bits (70_reset_and_hazards.md R171): a reset tick clears both, and every other step keeps
each bit that is set. -/

namespace Sys2Proof.Machine

/-- Each error bit that is set in `e` is set in `e'`. -/
structure Engine.KeepsErrorBits (e e' : Engine) : Prop where
  ill : e.errIll = true → e'.errIll = true
  busy : e.errBusy = true → e'.errBusy = true

theorem Engine.KeepsErrorBits.of_eq {e e' : Engine} (h : e' = e) : e.KeepsErrorBits e' := by
  subst h
  exact ⟨id, id⟩

theorem accept_keepsErrorBits (dir : Bool) (s : State) : s.engine.KeepsErrorBits (accept dir s).engine := ⟨id, id⟩

theorem Engine.keepsErrorBits_setErrIll (e : Engine) : e.KeepsErrorBits { e with errIll := true } := ⟨fun _ => rfl, id⟩

/-- The round keeps the bits and the command's error adds to them. -/
theorem afterRunTick_keepsErrorBits (F : FTable) (q : Cmd) (e : Engine) : e.KeepsErrorBits (afterRunTick F q e) where
  ill h := by rw [afterRunTick_errIll, h, Bool.true_or]
  busy h := by rw [afterRunTick_errBusy, h, Bool.true_or, Bool.true_or]

section
variable {c : Config} {s t : State}

/-- A tick is a reset, or keeps the error bits. -/
theorem tick_reset_or_keepsErrorBits (h : tick (execOf c) s = .next t) :
    s.ports.rst = true ∧ t.engine = Engine.reset ∨ s.ports.rst = false ∧ s.engine.KeepsErrorBits t.engine := by
  rcases tick_cases h with ⟨hr, rfl⟩ | ⟨hr, -, ready⟩ | ⟨hr, -, -, rfl⟩
  · exact .inl ⟨hr, rfl⟩
  · refine .inr ⟨hr, ?_⟩
    rcases ready with ⟨-, rfl⟩ | ⟨-, rfl⟩ | ⟨-, rfl⟩ | ⟨-, rfl⟩
    · exact .of_eq rfl
    · exact accept_keepsErrorBits false s
    · exact accept_keepsErrorBits true s
    · exact s.engine.keepsErrorBits_setErrIll
  · exact .inr ⟨hr, afterRunTick_keepsErrorBits _ _ _⟩

theorem State.nextIsReset_of_idle (h : s.host = []) : s.nextIsReset = false := by
  rw [State.nextIsReset, h]

theorem State.nextIsReset_of_tick {p : PortIn} {rest : List HostStmt} (h : s.host = .tick p :: rest) :
    s.nextIsReset = p.rst := by
  rw [State.nextIsReset, h]

theorem State.nextIsReset_of_read {reg : HostReg} {rest : List HostStmt} (h : s.host = .read reg :: rest) :
    s.nextIsReset = false := by
  rw [State.nextIsReset, h]

theorem State.nextIsReset_of_call {w : InstrWord} {rest : List HostStmt} (h : s.host = .call w :: rest) :
    s.nextIsReset = false := by
  rw [State.nextIsReset, h]

/-- A step of any kind is a reset tick, or keeps the error bits: an idle tick is no reset, and a read or a call leaves the
engine alone. -/
theorem stepOf_reset_or_keepsErrorBits (h : stepOf c s = .next t) :
    s.nextIsReset = true ∧ t.engine = Engine.reset ∨ s.nextIsReset = false ∧ s.engine.KeepsErrorBits t.engine := by
  rcases stepOf_cases h with ⟨hh, ht⟩ | ⟨p, rest, hh, ht⟩ | ⟨reg, rest, hh, hread⟩ | ⟨w, rest, hh, hcall⟩
  · rw [State.nextIsReset_of_idle hh]
    exact .inr ⟨rfl, (tick_reset_or_keepsErrorBits ht).elim (fun hr => nomatch hr.1) And.right⟩
  · rw [State.nextIsReset_of_tick hh]
    exact tick_reset_or_keepsErrorBits ht
  · obtain ⟨-, -, engine, -⟩ := readReg_eq_next hread
    exact .inr ⟨State.nextIsReset_of_read hh, .of_eq engine⟩
  · obtain ⟨v, rfl⟩ := call_cases hcall
    exact .inr ⟨State.nextIsReset_of_call hh, .of_eq rfl⟩

end

/-- Settles O15: a reset tick leaves the reset engine, whose bits are 0; any other step keeps the bits, so it clears none. -/
theorem onlyResetClearsErrorBits : Obligations.OnlyResetClearsErrorBits := by
  intro s t h
  rcases stepOf_reset_or_keepsErrorBits (stepOf_referenceConfig ▸ h) with ⟨reset, engine⟩ | ⟨noReset, keeps⟩
  · exact ⟨fun _ _ => reset, fun _ _ => reset, fun _ => by rw [engine]; exact ⟨rfl, rfl⟩⟩
  · refine ⟨fun hset hclear => ?_, fun hset hclear => ?_, fun reset => ?_⟩
    · exact absurd (keeps.ill hset) (Bool.eq_false_iff.1 hclear)
    · exact absurd (keeps.busy hset) (Bool.eq_false_iff.1 hclear)
    · exact absurd reset (Bool.eq_false_iff.1 noReset)

end Sys2Proof.Machine
end

section
/-! The operand bytes of a call in both directions: splitting and joining a block (43_block_drivers.md R122), and laying words
and keys out as bytes and reading them back (20_memory.md R53 to R56). -/

namespace Sys2Proof.Machine

/-- The four fields of a block are its bits from 48, 32, 16 and 0 up. -/
@[simp] theorem joinBlock_splitBlock (b : Block) : joinBlock (splitBlock b) = b := by
  refine BitVec.eq_of_getLsbD_eq fun i hi => ?_
  have field : ∀ k, k ≤ i → i < k + 16 → (b.extractLsb' k 16).getLsbD (i - k) = b.getLsbD i := fun k low high => by
    rw [BitVec.getLsbD_extractLsb', decide_eq_true (by omega), Bool.true_and, Nat.add_sub_cancel' low]
  rw [getLsbD_joinBlock]
  split_ifs with h16 h32 h48
  · exact field 0 (Nat.zero_le i) (by omega)
  · exact field 16 (by omega) (by omega)
  · exact field 32 (by omega) (by omega)
  · exact field 48 (by omega) (by omega)

/-- Field by field: each one's bits fall into the place that the join gave its word. -/
@[simp] theorem splitBlock_joinBlock (st : Words) : splitBlock (joinBlock st) = st := by
  ext i hi <;> simp only [splitBlock, ← BitVec.getLsbD_eq_getElem, BitVec.getLsbD_extractLsb', getLsbD_joinBlock, hi,
    decide_true, Bool.true_and, Nat.zero_add, if_true]
  case w1 => rw [if_neg (by omega), if_neg (by omega), if_neg (by omega), Nat.add_sub_cancel_left]
  case w2 => rw [if_neg (by omega), if_neg (by omega), if_pos (by omega), Nat.add_sub_cancel_left]
  case w3 => rw [if_neg (by omega), if_pos (by omega), Nat.add_sub_cancel_left]

/-- Settles O40: each direction bit by bit. -/
theorem splitAndJoinAreInverse : Obligations.SplitAndJoinAreInverse :=
  ⟨joinBlock_splitBlock, splitBlock_joinBlock⟩

/-- Eight bytes or more, read as four words, lay out as the first eight. -/
theorem bytesOfWords_wordsOfBytes {l : List Byte} (h : 8 ≤ l.length) : bytesOfWords (wordsOfBytes l) = l.take 8 := by
  refine List.ext_getElem (by simp [h]) fun i hi _ => ?_
  have hi : i < 8 := hi
  interval_cases i <;> simp [bytesOfWords, wordsOfBytes, List.getElem?_eq_getElem (Nat.lt_of_lt_of_le hi h)]

/-- Ten bytes or more, read as a key, are its first ten. -/
theorem toList_keyOfList {l : List Byte} (h : 10 ≤ l.length) : (keyOfList l).toList = l.take 10 := by
  refine List.ext_getElem (by simp [h]) fun i hi _ => ?_
  have hi : i < 10 := by simpa using hi
  simp [List.getElem?_eq_getElem (Nat.lt_of_lt_of_le hi h)]

end Sys2Proof.Machine
end

section
/-! Decoding and encoding are inverse (30_encoding.md R77), one operand layout at a time. -/

namespace Sys2Proof

open Sys2Proof.Machine

theorem toNat_ofNat_of_inRange {r : Nat} (h : RoundInRange r) : (BitVec.ofNat 8 r).toNat = r :=
  Nat.mod_eq_of_lt (Nat.lt_of_le_of_lt h.2 (by decide))

/-- The operand bytes of a driver give the driver form back, whatever the key's length. -/
theorem decodeDriverForm_encodeDriverForm (form : DriverForm) : decodeDriverForm (encodeDriverForm form) = .ok form := by
  cases form with
  | ports => rfl
  | call b key =>
    have layout : ∃ x xs, bytesOfWords (splitBlock b) ++ key = x :: xs := ⟨_, _, rfl⟩
    have enough : 8 ≤ (bytesOfWords (splitBlock b) ++ key).length := by simp
    have rest : (bytesOfWords (splitBlock b) ++ key).drop 8 = key := List.drop_left' rfl
    obtain ⟨x, xs, hx⟩ := layout
    rw [encodeDriverForm, hx, decodeDriverForm, ← hx, if_pos enough, rest, wordsOfBytes_bytesOfWords_append,
      joinBlock_splitBlock]

theorem decodeRoundForm_encodeRoundForm {form : RoundForm} (h : form.wellFormed = true) :
    decodeRoundForm (encodeRoundForm form) = .ok form := by
  cases form with
  | engine => rfl
  | call r key st =>
    have count : (key.toList ++ bytesOfWords st).length = 18 := by simp
    have words : (key.toList ++ bytesOfWords st).drop 10 = bytesOfWords st := List.drop_left' (by simp)
    simp only [encodeRoundForm, decodeRoundForm, if_pos count, words, keyOfList_toList_append, wordsOfBytes_bytesOfWords,
      toNat_ofNat_of_inRange (of_decide_eq_true h)]

theorem decodeKeyed_encodeKeyed (mk : Nat → Key → Word → Instr) {r : Nat} (key : Key) (w : Word) (h : RoundInRange r) :
    decodeKeyed mk (encodeKeyed r key w) = .ok (mk r key w) := by
  have count : (key.toList ++ [hiByte w, loByte w]).length = 12 := by simp
  have hi : (key.toList ++ [hiByte w, loByte w]).getD 10 0 = hiByte w := by simp
  have lo : (key.toList ++ [hiByte w, loByte w]).getD 11 0 = loByte w := by simp
  simp only [encodeKeyed, decodeKeyed, if_pos count, hi, lo, keyOfList_toList_append, wordOf_hiByte_loByte,
    toNat_ofNat_of_inRange h]

/-- Settles O2: the code selects the row, and each row's operand layout reads back what it laid out. -/
theorem decodeAfterEncodeIsIdentity : Obligations.DecodeAfterEncodeIsIdentity := by
  intro i h
  cases i with
  | nop => rfl
  | reserved => rfl
  | enc form => exact congrArg (Except.map Instr.enc) (decodeDriverForm_encodeDriverForm form)
  | dec form => exact congrArg (Except.map Instr.dec) (decodeDriverForm_encodeDriverForm form)
  | roundA form => exact congrArg (Except.map Instr.roundA) (decodeRoundForm_encodeRoundForm h)
  | roundB form => exact congrArg (Except.map Instr.roundB) (decodeRoundForm_encodeRoundForm h)
  | roundAinv form => exact congrArg (Except.map Instr.roundAinv) (decodeRoundForm_encodeRoundForm h)
  | roundBinv form => exact congrArg (Except.map Instr.roundBinv) (decodeRoundForm_encodeRoundForm h)
  | f x => rfl
  | g r key w => exact decodeKeyed_encodeKeyed .g key w (of_decide_eq_true h)
  | ginv r key w => exact decodeKeyed_encodeKeyed .ginv key w (of_decide_eq_true h)
  | split b =>
    change Except.ok (Instr.split (joinBlock (wordsOfBytes (bytesOfWords (splitBlock b))))) = _
    rw [wordsOfBytes_bytesOfWords, joinBlock_splitBlock]
  | join st =>
    change Except.ok (Instr.join (wordsOfBytes (bytesOfWords st))) = _
    rw [wordsOfBytes_bytesOfWords]

/-- A driver form comes from its own operand bytes only. -/
theorem encodeDriverForm_of_decodeDriverForm {ops : List Byte} {form : DriverForm} (h : decodeDriverForm ops = .ok form) :
    encodeDriverForm form = ops := by
  cases ops with
  | nil => cases h; rfl
  | cons x xs =>
    rw [decodeDriverForm] at h
    split at h
    · cases h
      rw [encodeDriverForm, splitBlock_joinBlock, bytesOfWords_wordsOfBytes ‹_›, List.take_append_drop]
    · cases h

theorem encodeRoundForm_of_decodeRoundForm {ops : List Byte} {form : RoundForm} (h : decodeRoundForm ops = .ok form) :
    encodeRoundForm form = ops := by
  cases ops with
  | nil => cases h; rfl
  | cons r rest =>
    rw [decodeRoundForm] at h
    split at h
    case isTrue count =>
      cases h
      have words : bytesOfWords (wordsOfBytes (rest.drop 10)) = rest.drop 10 := by
        rw [bytesOfWords_wordsOfBytes (by simp [count]), List.take_of_length_le (by simp [count])]
      rw [encodeRoundForm, toList_keyOfList (by omega), words, List.take_append_drop, BitVec.ofNat_toNat,
        BitVec.setWidth_eq]
    case isFalse => cases h

theorem encodeKeyed_of_decodeKeyed {mk : Nat → Key → Word → Instr} {ops : List Byte} {i : Instr}
    (h : decodeKeyed mk ops = .ok i) : ∃ r key w, i = mk r key w ∧ encodeKeyed r key w = ops := by
  cases ops with
  | nil => cases h
  | cons r rest =>
    rw [decodeKeyed] at h
    split at h
    case isTrue count =>
      cases h
      refine ⟨_, _, _, rfl, ?_⟩
      have word : [rest.getD 10 0, rest.getD 11 0] = rest.drop 10 := by
        refine List.ext_getElem (by simp [count]) fun i hi _ => ?_
        have hi : i < 2 := hi
        interval_cases i <;> simp [count]
      rw [encodeKeyed, toList_keyOfList (by omega), hiByte_wordOf, loByte_wordOf, word, List.take_append_drop,
        BitVec.ofNat_toNat, BitVec.setWidth_eq]
    case isFalse => cases h

theorem decodeNone_eq_ok {i j : Instr} {ops : List Byte} (h : decodeNone i ops = .ok j) : j = i ∧ ops = [] := by
  cases ops with
  | nil => cases h; exact ⟨rfl, rfl⟩
  | cons x xs => cases h

/-- A mapped outcome is a value only as the image of one. -/
theorem exists_of_map_eq_ok {α β : Type} {f : α → β} {x : Except DecodeError α} {b : β} (h : x.map f = .ok b) :
    ∃ a, x = .ok a ∧ f a = b := by
  cases x with
  | ok a => exact ⟨a, rfl, Except.ok.inj h⟩
  | error e => cases h

theorem encode_of_decodeCmd {code : Byte} {ops : List Byte} {i : Instr} (h : decodeCmd code ops = .ok i) :
    encode i = ⟨.cmd, code, ops⟩ := by
  unfold decodeCmd at h
  split_ifs at h with h0 h1 h2 h3
  · obtain ⟨rfl, rfl⟩ := decodeNone_eq_ok h
    rw [h0]; rfl
  · obtain ⟨form, hf, rfl⟩ := exists_of_map_eq_ok h
    rw [h1, ← encodeDriverForm_of_decodeDriverForm hf]; rfl
  · obtain ⟨form, hf, rfl⟩ := exists_of_map_eq_ok h
    rw [h2, ← encodeDriverForm_of_decodeDriverForm hf]; rfl
  · obtain ⟨rfl, rfl⟩ := decodeNone_eq_ok h
    rw [h3]; rfl

theorem encode_of_decodeRound {code : Byte} {ops : List Byte} {i : Instr} (h : decodeRound code ops = .ok i) :
    encode i = ⟨.roundSelect, code, ops⟩ := by
  unfold decodeRound at h
  split_ifs at h with h0 h1 h2 h3 <;> obtain ⟨form, hf, rfl⟩ := exists_of_map_eq_ok h <;>
    rw [← encodeRoundForm_of_decodeRoundForm hf]
  · rw [h0]; rfl
  · rw [h1]; rfl
  · rw [h2]; rfl
  · rw [h3]; rfl

theorem encode_of_decodeDatapath {code : Byte} {ops : List Byte} {i : Instr} (h : decodeDatapath code ops = .ok i) :
    encode i = ⟨.datapath, code, ops⟩ := by
  have eightBytes : ops.length = 8 → bytesOfWords (wordsOfBytes ops) = ops := fun count => by
    rw [bytesOfWords_wordsOfBytes (by omega), List.take_of_length_le (by omega)]
  unfold decodeDatapath at h
  split_ifs at h with h0 h1 h2 h3 count h4 count
  · split at h
    · cases h; rw [h0]; rfl
    · cases h
  · obtain ⟨r, key, w, rfl, rfl⟩ := encodeKeyed_of_decodeKeyed h
    rw [h1]; rfl
  · obtain ⟨r, key, w, rfl, rfl⟩ := encodeKeyed_of_decodeKeyed h
    rw [h2]; rfl
  · cases h
    rw [encode, splitBlock_joinBlock, eightBytes count, h3]
  · cases h
    rw [encode, eightBytes count, h4]

/-- Settles O3: each format's codes name one row each, and each row's operand layout drops no byte. -/
theorem encodeAfterDecodeIsIdentity : Obligations.EncodeAfterDecodeIsIdentity := by
  rintro ⟨format, code, ops⟩ i h
  cases format with
  | cmd => exact encode_of_decodeCmd h
  | roundSelect => exact encode_of_decodeRound h
  | datapath => exact encode_of_decodeDatapath h

/-- Settles O1: the decoder evaluated at the thirteen words. -/
theorem specWordsDecode : Obligations.SpecWordsDecode := by
  unfold Obligations.SpecWordsDecode
  decide

/-- Settles O4: such a code is none of those that the decoder's conditions name. -/
theorem unassignedCodesAreRejected : Obligations.UnassignedCodesAreRejected := by
  intro c ops
  have ne : ∀ {n : Nat} {k : Byte}, n ≤ c.toNat → k.toNat < n → c ≠ k := by
    rintro n k hc hk rfl
    exact absurd hk (Nat.not_lt.2 hc)
  refine ⟨fun hc => ?datapath, fun hc => ?cmd, fun hc => ?roundSelect⟩
  case datapath =>
    simp only [decode, decodeDatapath, if_neg (ne hc (k := 0) (by decide)), if_neg (ne hc (k := 1) (by decide)),
      if_neg (ne hc (k := 2) (by decide)), if_neg (ne hc (k := 3) (by decide)), if_neg (ne hc (k := 4) (by decide))]
  case cmd =>
    simp only [decode, decodeCmd, if_neg (ne hc (k := 0) (by decide)), if_neg (ne hc (k := 1) (by decide)),
      if_neg (ne hc (k := 2) (by decide)), if_neg (ne hc (k := 3) (by decide))]
  case roundSelect =>
    simp only [decode, decodeRound, if_neg (ne hc (k := 0) (by decide)), if_neg (ne hc (k := 1) (by decide)),
      if_neg (ne hc (k := 2) (by decide)), if_neg (ne hc (k := 3) (by decide))]

end Sys2Proof
end

section
/-! The inverse laws of the datapath for every table: G and Ginv (41_g_permutation.md R104, R105), the rules (42_round_rules.md
R114, R115) and the 32 rounds of the drivers (43_block_drivers.md R127). -/

namespace Sys2Proof.Machine

/-- Settles O28: the indices of G are 4(r-1) + i, and each step down of Ginv undoes a step up. -/
theorem ginvKeyIndicesReverseThoseOfG : Obligations.GinvKeyIndicesReverseThoseOfG := by
  refine fun r _ => ⟨rfl, ?reversed, ?listed⟩
  case reversed => simp only [jGinv, jDown_succ_mod, jG, jUp_mod, List.reverse_cons, List.reverse_nil, List.nil_append,
    List.cons_append]
  case listed => simp only [jG, jUp_mod]; rfl

section
variable (F : FTable) (key : Key)

/-- A sub-step undoes itself, whatever the table: it only xors the looked-up byte in (R93). -/
@[simp] theorem gStep_gStep (j : Nat) (a b : Byte) : gStep F key j a (gStep F key j a b) = b :=
  xor_cancel_left _ b

/-- Ginv's sub-steps undo those of G, the last one first. -/
@[simp] theorem gInv_g (r : Nat) (w : Word) : gInv F r key (g F r key w) = w := by
  simp only [g_eq_subSteps, gInv_eq_subSteps, hiByte_wordOf, loByte_wordOf, gStep_gStep, wordOf_hiByte_loByte]

/-- G's sub-steps undo those of Ginv, the last one first. -/
@[simp] theorem g_gInv (r : Nat) (w : Word) : g F r key (gInv F r key w) = w := by
  simp only [g_eq_subSteps, gInv_eq_subSteps, hiByte_wordOf, loByte_wordOf, gStep_gStep, wordOf_hiByte_loByte]

/-! Each rule's inverse takes back the word that G or Ginv has mixed, and then xors the same two values out again. -/

@[simp] theorem ruleAinv_ruleA (r : Nat) (st : Words) : ruleAinv F r key (ruleA F r key st) = st := by
  ext1 <;> simp [ruleA, ruleAinv, BitVec.xor_assoc]

@[simp] theorem ruleA_ruleAinv (r : Nat) (st : Words) : ruleA F r key (ruleAinv F r key st) = st := by
  ext1 <;> simp [ruleA, ruleAinv, BitVec.xor_assoc]

@[simp] theorem ruleBinv_ruleB (r : Nat) (st : Words) : ruleBinv F r key (ruleB F r key st) = st := by
  ext1 <;> simp [ruleB, ruleBinv, BitVec.xor_assoc]

@[simp] theorem ruleB_ruleBinv (r : Nat) (st : Words) : ruleB F r key (ruleBinv F r key st) = st := by
  ext1 <;> simp [ruleB, ruleBinv, BitVec.xor_assoc]

/-- Rounds that agree modulo 5 use the same key bytes, since 4 times the difference is a multiple of 20. -/
theorem jG_congr {r r' : Nat} (hr : RoundInRange r) (hr' : RoundInRange r') (h : r % 5 = r' % 5) : jG r = jG r' := by
  unfold jG
  omega

theorem jGinv_congr {r r' : Nat} (hr : RoundInRange r) (hr' : RoundInRange r') (h : r % 5 = r' % 5) :
    jGinv r = jGinv r' := by
  unfold jGinv
  omega

/-- The round number enters G through its first key index only. -/
theorem g_congr {r r' : Nat} (h : jG r = jG r') (w : Word) : g F r key w = g F r' key w := by simp only [g, h]

theorem gInv_congr {r r' : Nat} (h : jGinv r = jGinv r') (w : Word) : gInv F r key w = gInv F r' key w := by
  simp only [gInv, h]

/-- Replacing one xored constant by another is one xor with their difference. -/
theorem xor_eq_xor_xor {n : Nat} (a c c' : BitVec n) : a ^^^ c = a ^^^ c' ^^^ (c ^^^ c') := by
  rw [BitVec.xor_comm c c', BitVec.xor_assoc, xor_cancel_left]

/-- A round constant fits in six bits. -/
theorem getLsbD_ofNat_of_inRange {r i : Nat} (hr : RoundInRange r) (hi : 6 ≤ i) : (BitVec.ofNat 16 r).getLsbD i = false := by
  have small : r < 2 ^ i := calc
    r < 2 ^ 6 := Nat.lt_of_le_of_lt hr.2 (by decide)
    _ ≤ 2 ^ i := Nat.pow_le_pow_right (by decide) hi
  rw [BitVec.getLsbD_ofNat, Nat.testBit_lt_two_pow small, Bool.and_false]

@[simp] theorem decryptRound_encryptRound (r : Nat) (st : Words) :
    decryptRound F r key (encryptRound F r key st) = st := by
  cases h : isA r <;> simp [encryptRound, decryptRound, h]

@[simp] theorem encryptRound_decryptRound (r : Nat) (st : Words) :
    encryptRound F r key (decryptRound F r key st) = st := by
  cases h : isA r <;> simp [encryptRound, decryptRound, h]

/-- The decryption's first round undoes the encryption's last, and so on inwards. -/
@[simp] theorem decryptRounds_encryptRounds (n : Nat) (st : Words) :
    decryptRounds F key n (encryptRounds F key n st) = st := by
  induction n with
  | zero => rfl
  | succ n ih => rw [encryptRounds_succ, decryptRounds_succ, decryptRound_encryptRound, ih]

@[simp] theorem encryptRounds_decryptRounds (n : Nat) (st : Words) :
    encryptRounds F key n (decryptRounds F key n st) = st := by
  induction n generalizing st with
  | zero => rfl
  | succ n ih => rw [encryptRounds_succ, decryptRounds_succ, ih, encryptRound_decryptRound]

@[simp] theorem decryptWith_encryptWith (b : Block) : decryptWith F (encryptWith F b key) key = b := by
  rw [decryptWith, encryptWith, splitBlock_joinBlock, decryptRounds_encryptRounds, joinBlock_splitBlock]

@[simp] theorem encryptWith_decryptWith (b : Block) : encryptWith F (decryptWith F b key) key = b := by
  rw [encryptWith, decryptWith, splitBlock_joinBlock, encryptRounds_decryptRounds, joinBlock_splitBlock]

end

/-- Settles O29: the two compositions of the four sub-steps. -/
theorem gAndGinvAreInverse : Obligations.GAndGinvAreInverse := fun F r key w _ => ⟨gInv_g F key r w, g_gInv F key r w⟩

/-- Settles O36: the two rules of each pair, composed. -/
theorem inverseRulesUndoForwardRules : Obligations.InverseRulesUndoForwardRules :=
  fun F r key st _ => ⟨ruleAinv_ruleA F key r st, ruleBinv_ruleB F key r st⟩

/-- Settles O37: G and Ginv are the same in both rounds, so the constant alone tells the results apart. -/
theorem roundConstantIsOnlyXored : Obligations.RoundConstantIsOnlyXored := by
  intro F r r' key st hr hr' h d
  have hG : g F r key = g F r' key := funext (g_congr F key (jG_congr hr hr' h))
  have hGinv : gInv F r key = gInv F r' key := funext (gInv_congr F key (jGinv_congr hr hr' h))
  have mix : ∀ a : Word, a ^^^ roundConst r = a ^^^ roundConst r' ^^^ d := fun a => xor_eq_xor_xor a _ _
  refine ⟨?_, ?_, ?_, ?_, ?high⟩
  · simp only [ruleA, hG, mix]
  · simp only [ruleB, hG, mix]
  · simp only [ruleAinv, hGinv, mix]
  · simp only [ruleBinv, hGinv, mix]
  case high =>
    refine BitVec.eq_of_getLsbD_eq fun i hi => ?_
    simp [d, getLsbD_ofNat_of_inRange hr, getLsbD_ofNat_of_inRange hr']

/-- Settles O43: with ten key bytes both drivers are their 32 rounds between a split and a join, which undo each other. -/
theorem decryptUndoesEncrypt : Obligations.DecryptUndoesEncrypt := by
  refine fun F b key h => ⟨⟨_, encryptBlock_of_length h, ?_⟩, ⟨_, decryptBlock_of_length h, ?_⟩⟩
  · rw [decryptBlock_of_length h, decryptWith_encryptWith]
  · rw [encryptBlock_of_length h, encryptWith_decryptWith]

end Sys2Proof.Machine
end

section
/-! A step as a tick of its port values or as something that leaves the engine alone (43_block_drivers.md R129), and the legal
engines that every step keeps (10_state.md R24, R26; 43_block_drivers.md R133, R137). -/

namespace Sys2Proof.Machine

section
variable {c : Config} {s t : State} {p : PortIn}

theorem State.nextPorts?_of_idle (h : s.host = []) : s.nextPorts? = some (idlePorts s.ports) := by
  rw [State.nextPorts?, h]

theorem State.nextPorts?_of_tick {rest : List HostStmt} (h : s.host = .tick p :: rest) : s.nextPorts? = some p := by
  rw [State.nextPorts?, h]

theorem State.nextPorts?_of_read {reg : HostReg} {rest : List HostStmt} (h : s.host = .read reg :: rest) :
    s.nextPorts? = none := by
  rw [State.nextPorts?, h]

theorem State.nextPorts?_of_call {w : InstrWord} {rest : List HostStmt} (h : s.host = .call w :: rest) :
    s.nextPorts? = none := by
  rw [State.nextPorts?, h]

/-- The state in which a tick with the port values `p` starts: the host's next statement is taken, if there is one. -/
def State.presenting (s : State) (p : PortIn) : State := (s.withHost s.host.tail).withPorts p

@[simp] theorem State.presenting_engine (s : State) (p : PortIn) : (s.presenting p).engine = s.engine := rfl
@[simp] theorem State.presenting_ports (s : State) (p : PortIn) : (s.presenting p).ports = p := rfl
@[simp] theorem State.presenting_host (s : State) (p : PortIn) : (s.presenting p).host = s.host.tail := rfl
@[simp] theorem State.presenting_log (s : State) (p : PortIn) : (s.presenting p).log = s.log := rfl
@[simp] theorem State.presenting_freeReads (s : State) (p : PortIn) : (s.presenting p).freeReads = s.freeReads := rfl
@[simp] theorem State.presenting_faultMarks (s : State) (p : PortIn) : (s.presenting p).faultMarks = s.faultMarks := rfl

/-- A step that presents port values is a tick statement, or idle. -/
theorem State.host_of_nextPorts? (h : s.nextPorts? = some p) :
    (s.host = [] ∧ p = idlePorts s.ports) ∨ ∃ rest, s.host = .tick p :: rest := by
  cases hh : s.host with
  | nil =>
    rw [State.nextPorts?_of_idle hh] at h
    exact .inl ⟨rfl, (Option.some.inj h).symm⟩
  | cons x rest =>
    cases x with
    | tick q =>
      rw [State.nextPorts?_of_tick hh] at h
      exact .inr ⟨rest, by rw [Option.some.inj h]⟩
    | read reg => rw [State.nextPorts?_of_read hh] at h; cases h
    | call w => rw [State.nextPorts?_of_call hh] at h; cases h

/-- A step that presents port values is their tick, an idle step included. -/
theorem stepOf_of_nextPorts? (h : s.nextPorts? = some p) : stepOf c s = tick (execOf c) (s.presenting p) := by
  rcases State.host_of_nextPorts? h with ⟨hh, rfl⟩ | ⟨rest, hh⟩
  · rw [stepOf_idle hh, State.presenting, hh, List.tail_nil, ← hh, State.withHost_self]
  · rw [stepOf_tick hh, State.presenting, hh, List.tail_cons]

theorem step_of_nextPorts? (h : s.nextPorts? = some p) :
    step s = tick (execOf referenceConfig) (s.presenting p) :=
  stepOf_referenceConfig ▸ stepOf_of_nextPorts? (c := referenceConfig) h

theorem State.nextIsReset_of_nextPorts? (h : s.nextPorts? = some p) : s.nextIsReset = p.rst := by
  rcases State.host_of_nextPorts? h with ⟨hh, rfl⟩ | ⟨rest, hh⟩
  · exact State.nextIsReset_of_idle hh
  · exact State.nextIsReset_of_tick hh

/-- A step is the tick of the port values it presents, or presents none and leaves the engine, the ports and the fault marks
alone. -/
theorem stepOf_tick_or_frame (h : stepOf c s = .next t) :
    (∃ p, s.nextPorts? = some p ∧ tick (execOf c) (s.presenting p) = .next t) ∨
    (s.nextPorts? = none ∧ t.engine = s.engine ∧ t.ports = s.ports ∧ t.faultMarks = s.faultMarks) := by
  rcases stepOf_cases h with ⟨hh, -⟩ | ⟨p, rest, hh, -⟩ | ⟨reg, rest, hh, hread⟩ | ⟨w, rest, hh, hcall⟩
  · exact .inl ⟨_, State.nextPorts?_of_idle hh, (stepOf_of_nextPorts? (State.nextPorts?_of_idle hh)).symm.trans h⟩
  · exact .inl ⟨p, State.nextPorts?_of_tick hh, (stepOf_of_nextPorts? (State.nextPorts?_of_tick hh)).symm.trans h⟩
  · obtain ⟨-, -, engine, ports, -, marks, -⟩ := readReg_eq_next hread
    exact .inr ⟨State.nextPorts?_of_read hh, engine, ports, marks⟩
  · obtain ⟨v, rfl⟩ := call_cases hcall
    exact .inr ⟨State.nextPorts?_of_call hh, rfl, rfl, rfl⟩

theorem step_tick_or_frame (h : step s = .next t) :
    (∃ p, s.nextPorts? = some p ∧ tick (execOf referenceConfig) (s.presenting p) = .next t) ∨
    (s.nextPorts? = none ∧ t.engine = s.engine ∧ t.ports = s.ports ∧ t.faultMarks = s.faultMarks) :=
  stepOf_tick_or_frame (stepOf_referenceConfig ▸ h)

theorem Engine.reset_legal : Engine.reset.Legal := ⟨by decide, by decide, by decide⟩

/-- An accept starts at the first round of its direction, whatever the engine held. -/
theorem accept_legal (dir : Bool) (s : State) : (accept dir s).Inv where
  phase := nofun
  rnd := by
    rw [accept_engine_rnd]
    cases dir <;> decide
  held := nofun

/-- A round that is not the last of its direction has a next one in [1,32]. -/
theorem nextRound_inRange {rnd : BitVec 6} {dir : Bool} (h : RoundInRange rnd.toNat) (last : rnd ≠ lastRound dir) :
    RoundInRange (if dir then rnd - 1 else rnd + 1).toNat := by
  revert rnd dir
  decide

theorem afterRunTick_legal (F : FTable) (q : Cmd) {e : Engine} (h : RoundInRange e.rnd.toNat) :
    (afterRunTick F q e).Legal := by
  by_cases last : e.rnd = lastRound e.dir
  · obtain ⟨phase, rnd⟩ := afterRunTick_of_last (F := F) (c := q) rfl last
    exact ⟨by rw [phase]; nofun, by rw [rnd, ← last]; exact h, fun _ => rnd⟩
  · obtain ⟨phase, rnd⟩ := afterRunTick_of_not_last (F := F) (c := q) rfl last
    exact ⟨by rw [phase]; nofun, by rw [rnd]; exact nextRound_inRange h last, fun done => by rw [phase] at done; cases done⟩

/-- Every tick from a legal engine gives a legal engine. -/
theorem tick_legal (hs : s.Inv) (h : tick (execOf c) s = .next t) : t.Inv := by
  rcases tick_cases h with ⟨-, rfl⟩ | ⟨-, -, ready⟩ | ⟨-, -, hr, rfl⟩
  · exact Engine.reset_legal
  · rcases ready with ⟨-, rfl⟩ | ⟨-, rfl⟩ | ⟨-, rfl⟩ | ⟨-, rfl⟩
    · exact hs
    · exact accept_legal false s
    · exact accept_legal true s
    · exact ⟨hs.phase, hs.rnd, hs.held⟩
  · exact afterRunTick_legal _ _ hr

/-- Every tick from a legal engine completes and keeps the ports (R137). -/
theorem tick_completes (hs : s.Inv) : ∃ t, tick (execOf c) s = .next t ∧ t.ports = s.ports := by
  cases hr : s.ports.rst with
  | true => exact ⟨_, tick_reset hr, rfl⟩
  | false =>
    by_cases hrun : s.engine.phase = .run
    · exact ⟨_, (tick_run hr hrun).trans (if_pos hs.rnd), rfl⟩
    · refine ⟨_, tick_ready hr (Phase.ready_of_ne hs.phase hrun), ?_⟩
      split_ifs <;> rfl

/-- Who writes the engine at a tick: a reset, an accept, a round, which leaves K and DIR, or ERR_ILL alone is written. -/
theorem tick_writers (h : tick (execOf c) s = .next t) :
    s.ports.rst = true ∨
    ((s.ports.cmd = 0b01 ∨ s.ports.cmd = 0b10) ∧ (s.engine.phase = .idle ∨ s.engine.phase = .done)) ∨
    (s.engine.phase = .run ∧ t.engine.k = s.engine.k ∧ t.engine.dir = s.engine.dir) ∨
    ∃ ill, t.engine = { s.engine with errIll := ill } := by
  rcases tick_cases h with ⟨hr, -⟩ | ⟨-, ready, command⟩ | ⟨-, hrun, -, rfl⟩
  · exact .inl hr
  · rcases command with ⟨-, rfl⟩ | ⟨hc, -⟩ | ⟨hc, -⟩ | ⟨-, rfl⟩
    · exact .inr (.inr (.inr ⟨_, rfl⟩))
    · exact .inr (.inl ⟨.inl hc, ready⟩)
    · exact .inr (.inl ⟨.inr hc, ready⟩)
    · exact .inr (.inr (.inr ⟨_, rfl⟩))
  · exact .inr (.inr (.inl ⟨hrun, rfl, rfl⟩))

end

/-- Settles O52: a tick by the rule for ticks; a read and a call leave the engine alone. -/
theorem everyStepKeepsTheEngineLegal : Obligations.EveryStepKeepsTheEngineLegal := by
  intro s t hs h
  rcases step_tick_or_frame h with ⟨p, -, htick⟩ | ⟨-, engine, -⟩
  · exact tick_legal (s := s.presenting p) hs htick
  · rw [State.Inv, engine]
    exact hs

/-- Settles O53: a step that presents ports is their tick, which completes from a legal engine. -/
theorem everyTickCompletes : Obligations.EveryTickCompletes := by
  intro s p hs hp
  rw [step_of_nextPorts? hp]
  exact tick_completes (s := s.presenting p) hs

/-- Settles O9: PHASE is IDLE and RND is 1 at reset (log 1). -/
theorem resetStateIsLegal : Obligations.ResetStateIsLegal := Engine.reset_legal

/-- Settles O54: by who writes the engine at a tick; a step that presents no ports leaves all of it alone. -/
theorem whoWritesTheEngineRegisters : Obligations.WhoWritesTheEngineRegisters := by
  intro s t h
  rcases step_tick_or_frame h with ⟨p, hp, htick⟩ | ⟨-, engine, ports, -⟩
  · refine ⟨fun changed => ⟨p, hp, ?keyDir⟩, fun changed => ⟨p, hp, ?words⟩, fun noPorts => ?tick⟩
    case tick => rw [hp] at noPorts; cases noPorts
    case keyDir =>
      rcases tick_writers htick with hr | accepted | ⟨-, key, dir⟩ | ⟨ill, rest⟩
      · exact .inl hr
      · exact .inr accepted
      · exact (changed.elim (· key) (· dir)).elim
      · simp [rest] at changed
    case words =>
      rcases tick_writers htick with hr | accepted | ⟨hrun, -⟩ | ⟨ill, rest⟩
      · exact .inl hr
      · exact .inr (.inr accepted)
      · exact .inr (.inl hrun)
      · simp [rest] at changed
  · rw [engine]
    exact ⟨by simp, by simp, fun _ => ⟨rfl, ports⟩⟩

end Sys2Proof.Machine
end

section
/-! The fault marks (60_exceptions.md R150, R155, R157): which error a step raises, that a step records it and clears none, and
what a run without a mark never had. -/

namespace Sys2Proof.Machine

theorem commandError?_eq_illegal {ph : Phase} {q : Cmd} : commandError? ph q = some .illegalCommand ↔ q = 0b11 := by
  rcases cmd_cases q with rfl | rfl | rfl | rfl <;> cases ph <;> decide

theorem commandError?_eq_busy {ph : Phase} {q : Cmd} :
    commandError? ph q = some .commandWhileBusy ↔ (q = 0b01 ∨ q = 0b10) ∧ ph = .run := by
  rcases cmd_cases q with rfl | rfl | rfl | rfl <;> cases ph <;> decide

/-- No command presents a key of another length (R151). -/
theorem commandError?_ne_invalidKeyLength (ph : Phase) (q : Cmd) (n : Nat) :
    commandError? ph q ≠ some (.invalidKeyLength n) := by
  unfold commandError?
  split_ifs <;> nofun

section
variable {c : Config} {s t : State} {p : PortIn}

theorem State.nextError?_of_nextPorts? (h : s.nextPorts? = some p) :
    s.nextError? = if p.rst then none else commandError? s.engine.phase p.cmd := by
  rw [State.nextError?, h]

theorem State.nextError?_of_none (h : s.nextPorts? = none) : s.nextError? = none := by
  rw [State.nextError?, h]

/-- The next step raises an error exactly as a tick without reset whose command raises it. -/
theorem State.nextError?_eq_some {e : ErrorCause} :
    s.nextError? = some e ↔ ∃ p, s.nextPorts? = some p ∧ p.rst = false ∧ commandError? s.engine.phase p.cmd = some e := by
  cases hp : s.nextPorts? with
  | none => simp [State.nextError?_of_none hp]
  | some p => cases hr : p.rst <;> simp [State.nextError?_of_nextPorts? hp, hr]

/-- A tick adds the mark of its command's error to the marks, a reset tick none. -/
theorem tick_faultMarks (h : tick (execOf c) s = .next t) :
    t.faultMarks = (if s.ports.rst then none else commandError? s.engine.phase s.ports.cmd).toList ++ s.faultMarks := by
  rcases tick_cases h with ⟨hr, rfl⟩ | ⟨hr, ready, command⟩ | ⟨hr, hrun, -, rfl⟩
  · rw [hr]; rfl
  · have notRun : s.engine.phase ≠ .run := by rcases ready with hp | hp <;> rw [hp] <;> nofun
    rw [hr]
    rcases command with ⟨hc, rfl⟩ | ⟨hc, rfl⟩ | ⟨hc, rfl⟩ | ⟨hc, rfl⟩
    · rw [commandError?_start notRun (by rw [hc]; decide)]; rfl
    · rw [commandError?_start notRun (by rw [hc]; decide)]; rfl
    · rw [commandError?_start notRun (by rw [hc]; decide)]; rfl
    · rw [hc]; rfl
  · rw [hr, hrun]; rfl

/-- A step records the error that it raises, and clears no mark. -/
theorem step_faultMarks (h : step s = .next t) : t.faultMarks = s.nextError?.toList ++ s.faultMarks := by
  rcases step_tick_or_frame h with ⟨p, hp, htick⟩ | ⟨hp, -, -, marks⟩
  · rw [State.nextError?_of_nextPorts? hp]
    exact tick_faultMarks htick
  · rw [State.nextError?_of_none hp, marks]
    rfl

/-- An error bit that is set after a step was set before it, or is that of the error which the step raises. -/
theorem step_errorBits (h : step s = .next t) :
    (t.engine.errIll = true → s.engine.errIll = true ∨ s.nextError? = some .illegalCommand) ∧
    (t.engine.errBusy = true → s.engine.errBusy = true ∨ s.nextError? = some .commandWhileBusy) := by
  rcases step_tick_or_frame h with ⟨p, hp, htick⟩ | ⟨-, engine, -⟩
  · rw [State.nextError?_of_nextPorts? hp]
    rcases tick_cases htick with ⟨-, rfl⟩ | ⟨hr, -, command⟩ | ⟨hr, hrun, -, rfl⟩
    · exact ⟨nofun, nofun⟩
    · rcases command with ⟨-, rfl⟩ | ⟨-, rfl⟩ | ⟨-, rfl⟩ | ⟨hc, rfl⟩
      · exact ⟨.inl, .inl⟩
      · exact ⟨.inl, .inl⟩
      · exact ⟨.inl, .inl⟩
      · have hr : p.rst = false := hr
        have hc : p.cmd = 0b11 := hc
        exact ⟨fun _ => .inr (by rw [hr, hc]; rfl), .inl⟩
    · have hr : p.rst = false := hr
      have hrun : s.engine.phase = .run := hrun
      simp only [hr, hrun, Bool.false_eq_true, if_false, commandError?_eq_illegal, commandError?_eq_busy]
      simp [or_assoc]
  · rw [engine]
    exact ⟨.inl, .inl⟩

/-- A bit is marked after a step: it was before, and marks stay, or the step has raised its error, and marks it. -/
theorem step_bitsMarked (hs : s.BitsMarked) (h : step s = .next t) : t.BitsMarked := by
  obtain ⟨ill, busy⟩ := step_errorBits h
  have raised : ∀ e, s.nextError? = some e → e ∈ t.faultMarks := fun e he => by simp [step_faultMarks h, he]
  have stays : ∀ e, e ∈ s.faultMarks → e ∈ t.faultMarks := fun e he => by simp [step_faultMarks h, he]
  exact ⟨fun set => (ill set).elim (fun before => stays _ (hs.ill before)) (raised _),
    fun set => (busy set).elim (fun before => stays _ (hs.busy before)) (raised _)⟩

/-- With no error recorded, a marked state has no bit set. -/
theorem State.BitsMarked.clear (hs : s.BitsMarked) (h : s.NoErrorRecorded) :
    s.engine.errIll = false ∧ s.engine.errBusy = false := by
  refine ⟨Bool.eq_false_iff.2 fun set => ?_, Bool.eq_false_iff.2 fun set => ?_⟩
  · exact absurd (hs.ill set) (by simp [h])
  · exact absurd (hs.busy set) (by simp [h])

/-- A step after which no error is recorded raised none and came after none. -/
theorem step_noErrorRecorded (h : step s = .next t) (ht : t.NoErrorRecorded) :
    s.nextError? = none ∧ s.NoErrorRecorded := by
  rw [State.NoErrorRecorded, step_faultMarks h, List.append_eq_nil_iff] at ht
  exact ⟨Option.toList_eq_nil_iff.1 ht.1, ht.2⟩

/-- So is it with a run. -/
theorem steps_noErrorRecorded {n : Nat} (h : steps n s = .next t) (ht : t.NoErrorRecorded) : s.NoErrorRecorded := by
  induction n generalizing s with
  | zero => cases h; exact ht
  | succ n ih =>
    obtain ⟨u, hu, hrest⟩ := andThen_eq_next.1 ((steps_succ n s).symm.trans h)
    exact (step_noErrorRecorded hu (ih hrest)).2

end

/-- Settles O17: a bit that is set after a step was set before it or is raised by it, and marked in both cases. -/
theorem everyStepKeepsErrorBitsMarked : Obligations.EveryStepKeepsErrorBitsMarked := fun _ _ => step_bitsMarked

/-- Settles O16: the marks by the rule for a step, the causes by those of each command. -/
theorem faultMarksRecordEveryError : Obligations.FaultMarksRecordEveryError := by
  refine fun s t h => ⟨step_faultMarks h, ?illegal, ?busy, fun n => ?length⟩
  case illegal => simp only [State.nextError?_eq_some, commandError?_eq_illegal]
  case busy => simp only [State.nextError?_eq_some, commandError?_eq_busy]
  case length =>
    rw [Ne, State.nextError?_eq_some]
    exact fun ⟨_, _, _, h⟩ => commandError?_ne_invalidKeyLength _ _ _ h

/-- Settles O18: the list of marks is empty and both bits are 0 at reset. -/
theorem resetStateHasNoErrorRecorded : Obligations.ResetStateHasNoErrorRecorded := ⟨rfl, ⟨nofun, nofun⟩⟩

/-- Settles O19, by induction on the number of steps: the first step raised no error, and the run goes on from a marked
state. -/
theorem noErrorRecordedCoversTheWholeRun : Obligations.NoErrorRecordedCoversTheWholeRun := by
  intro n
  induction n with
  | zero =>
    intro s t hs h ht m hm
    cases h
    obtain rfl := Nat.le_zero.1 hm
    exact ⟨_, rfl, ht, (hs.clear ht).1, (hs.clear ht).2, fun lt => absurd lt (Nat.lt_irrefl 0)⟩
  | succ n ih =>
    intro s t hs h ht m hm
    obtain ⟨u, hu, hrest⟩ := andThen_eq_next.1 ((steps_succ n s).symm.trans h)
    obtain ⟨noError, before⟩ := step_noErrorRecorded hu (steps_noErrorRecorded hrest ht)
    cases m with
    | zero => exact ⟨s, rfl, before, (hs.clear before).1, (hs.clear before).2, fun _ => noError⟩
    | succ m =>
      obtain ⟨v, hv, clean, ill, busy, next⟩ := ih u t (step_bitsMarked hs hu) hrest ht m (Nat.le_of_succ_le_succ hm)
      exact ⟨v, (steps_succ_of_next hu m).trans hv, clean, ill, busy, fun lt => next (Nat.lt_of_succ_lt_succ lt)⟩

end Sys2Proof.Machine
end

section
/-! A whole operation (43_block_drivers.md R131, R133, R135, R136; 70_reset_and_hazards.md R176): the accept step, the engine
after each number of round ticks, and two engines that run the same operation. -/

namespace Sys2Proof.Machine

/-- The round number of the `n`-th round tick of an operation, counted from 0: up from 1, or down from 32. -/
def roundNumber (decrypt : Bool) (n : Nat) : Nat := if decrypt then 32 - n else n + 1

/-- One round of an operation, by its direction. -/
def operationRound (F : FTable) (decrypt : Bool) (r : Nat) (key : Key) (st : Words) : Words :=
  if decrypt then decryptRound F r key st else encryptRound F r key st

/-- The words after `n` round ticks of an operation that began with `st`. -/
def wordsAfter (F : FTable) (decrypt : Bool) (key : Key) (st : Words) : Nat → Words
  | 0 => st
  | n + 1 => operationRound F decrypt (roundNumber decrypt n) key (wordsAfter F decrypt key st n)

/-- An engine after `n` round ticks of the operation with `key` on `st`: in RUN with the next round's number, and in DONE after
32 of them. -/
structure Engine.AfterRounds (F : FTable) (decrypt : Bool) (key : Key) (st : Words) (n : Nat) (e : Engine) : Prop where
  w : e.w = wordsAfter F decrypt key st n
  k : e.k = key
  dir : e.dir = decrypt
  running : n < 32 → e.phase = .run ∧ e.rnd.toNat = roundNumber decrypt n
  finished : n = 32 → e.phase = .done

section
variable {F : FTable} {decrypt : Bool} {key : Key} {st : Words} {n : Nat} {e : Engine}

theorem wordsAfter_succ : wordsAfter F decrypt key st (n + 1) =
    operationRound F decrypt (roundNumber decrypt n) key (wordsAfter F decrypt key st n) := rfl

/-- An encryption begins with A at round 1, a decryption with Binv at round 32. -/
theorem operationRound_first : operationRound F decrypt (roundNumber decrypt 0) key st =
    if decrypt then ruleBinv F 32 key st else ruleA F 1 key st := by
  have first : encryptRound F 1 key st = ruleA F 1 key st := if_pos (by decide)
  have last : decryptRound F 32 key st = ruleBinv F 32 key st := if_neg (by decide)
  cases decrypt
  · exact first
  · exact last

theorem wordsAfter_encrypt : wordsAfter F false key st n = encryptRounds F key n st := by
  induction n with
  | zero => rfl
  | succ n ih => rw [wordsAfter_succ, ih, encryptRounds_succ]; rfl

/-- What is left of a decryption after `n` rounds gives the whole one's result. -/
theorem decryptRounds_wordsAfter (m n : Nat) (h : m + n = 32) :
    decryptRounds F key m (wordsAfter F true key st n) = decryptRounds F key 32 st := by
  induction n generalizing m with
  | zero => obtain rfl : m = 32 := h; rfl
  | succ n ih =>
    have number : roundNumber true n = m + 1 := by simp only [roundNumber, if_true]; omega
    rw [← ih (m + 1) (by omega), decryptRounds_succ, wordsAfter_succ, number]
    rfl

theorem wordsAfter_decrypt : wordsAfter F true key st 32 = decryptRounds F key 32 st :=
  decryptRounds_wordsAfter 0 32 rfl

/-- The rule that SEL selects is the schedule's (R126; 30_encoding.md R72). -/
theorem selectedRule_sel (h : RoundInRange e.rnd.toNat) :
    selectedRule F e.sel e.rnd.toNat key st = operationRound F e.dir e.rnd.toNat key st := by
  have range : 1 ≤ e.rnd.toNat ∧ e.rnd.toNat ≤ 32 := h
  rw [operationRound, encryptRound_eq_ite, decryptRound_eq_ite]
  by_cases hA : 1 ≤ e.rnd.toNat ∧ e.rnd.toNat ≤ 8 ∨ 17 ≤ e.rnd.toNat ∧ e.rnd.toNat ≤ 24
  · rw [Engine.sel_of_roundsA hA, if_pos hA, if_pos hA]
    cases e.dir <;> rfl
  · rw [Engine.sel_of_roundsB (by omega), if_neg hA, if_neg hA]
    cases e.dir <;> rfl

theorem roundNumber_inRange (h : n < 32) : RoundInRange (roundNumber decrypt n) := by
  rw [roundNumber, roundInRange_iff]
  cases decrypt
  · simp only [Bool.false_eq_true, if_false]; omega
  · simp only [if_true]; omega

/-- The last of the 32 rounds, by its number, is the one that the engine ends at. -/
theorem eq_lastRound_iff {rnd : BitVec 6} (h : n < 32) (hr : rnd.toNat = roundNumber decrypt n) :
    rnd = lastRound decrypt ↔ n = 31 := by
  rw [← BitVec.toNat_inj, hr]
  cases decrypt
  · simp [roundNumber, lastRound]
  · simp [roundNumber, lastRound]; omega

/-- RND steps to the next round's number. -/
theorem nextRound_toNat {rnd : BitVec 6} (h : n + 1 < 32) (hr : rnd.toNat = roundNumber decrypt n) :
    (if decrypt then rnd - 1 else rnd + 1).toNat = roundNumber decrypt (n + 1) := by
  cases decrypt
  · simp only [roundNumber, Bool.false_eq_true, if_false] at hr ⊢
    rw [BitVec.toNat_add, hr]
    exact Nat.mod_eq_of_lt (by simp; omega)
  · simp only [roundNumber, if_true] at hr ⊢
    rw [BitVec.toNat_sub_of_le (by rw [BitVec.le_def, hr]; simp; omega), hr]
    simp; omega

theorem Engine.AfterRounds.inRange (h : e.AfterRounds F decrypt key st n) (hn : n < 32) : RoundInRange e.rnd.toNat := by
  rw [(h.running hn).2]
  exact roundNumber_inRange hn

/-- A round tick is one more round of the operation, whatever its command. -/
theorem Engine.AfterRounds.succ (h : e.AfterRounds F decrypt key st n) (hn : n < 32) (q : Cmd) :
    (afterRunTick F q e).AfterRounds F decrypt key st (n + 1) := by
  obtain ⟨-, number⟩ := h.running hn
  have last := eq_lastRound_iff hn number
  refine ⟨?words, h.k, h.dir, fun more => ?running, fun all => ?finished⟩
  case words => rw [afterRunTick_w, selectedRule_sel (h.inRange hn), h.dir, number, h.k, h.w, wordsAfter_succ]
  case running =>
    obtain ⟨phase, rnd⟩ := afterRunTick_of_not_last (F := F) (c := q) h.dir (mt last.1 (by omega))
    exact ⟨phase, rnd ▸ nextRound_toNat more number⟩
  case finished => exact (afterRunTick_of_last (F := F) (c := q) h.dir (last.2 (by omega))).1

/-- The accept step begins the operation on what the ports present. -/
theorem accept_afterRounds (decrypt : Bool) (s : State) : (accept decrypt s).engine.AfterRounds F decrypt
    (keyOfPort s.ports.keyIn) (splitBlock s.ports.blockIn) 0 where
  w := rfl
  k := rfl
  dir := rfl
  running _ := ⟨rfl, by cases decrypt <;> rfl⟩
  finished := nofun

end

/-- What ticks without reset in RUN with these port values make of everything but the operation: each command sets its own
error bit, with its mark (60_exceptions.md R152, R153, R157). -/
structure State.RanTicks (ps : List PortIn) (s t : State) : Prop where
  errIll : t.engine.errIll = (s.engine.errIll || ps.any fun q => q.cmd == 0b11)
  errBusy : t.engine.errBusy = (s.engine.errBusy || ps.any fun q => q.cmd == 0b01 || q.cmd == 0b10)
  faultMarks : t.faultMarks = ps.reverse.filterMap (fun q => commandError? .run q.cmd) ++ s.faultMarks
  log : t.log = s.log

theorem State.RanTicks.nil (s : State) : State.RanTicks [] s s := ⟨by simp, by simp, rfl, rfl⟩

theorem State.RanTicks.append {ps qs : List PortIn} {s u t : State} (h : State.RanTicks ps s u)
    (h' : State.RanTicks qs u t) : State.RanTicks (ps ++ qs) s t where
  errIll := by rw [h'.errIll, h.errIll, List.any_append, Bool.or_assoc]
  errBusy := by rw [h'.errBusy, h.errBusy, List.any_append, Bool.or_assoc]
  faultMarks := by
    rw [h'.faultMarks, h.faultMarks, List.reverse_append, List.filterMap_append, List.append_assoc]
  log := h'.log.trans h.log

/-- A tick without reset runs one round of an operation that is not finished. -/
theorem step_tick_afterRounds {decrypt : Bool} {key : Key} {st : Words} {n : Nat} {s : State} {p : PortIn}
    {rest : List HostStmt} (h : s.engine.AfterRounds referenceConfig.FTABLE decrypt key st n) (hn : n < 32)
    (hhost : s.host = .tick p :: rest) (hrst : p.rst = false) :
    ∃ t, step s = .next t ∧ t.engine.AfterRounds referenceConfig.FTABLE decrypt key st (n + 1) ∧
      State.RanTicks [p] s t ∧ t.host = rest := by
  have tick := step_tick_run hhost hrst (h.running hn).1
  rw [if_pos (h.inRange hn)] at tick
  refine ⟨_, tick, h.succ hn p.cmd, ⟨?_, ?_, ?_, rfl⟩, rfl⟩
  · simp
  · simp [Bool.or_assoc]
  · cases he : commandError? .run p.cmd <;> simp [he]

/-- Ticks without reset run one round each, up to the 32nd. -/
theorem steps_ticks_afterRounds {decrypt : Bool} {key : Key} {st : Words} {n : Nat} {s : State} {ps : List PortIn}
    {rest : List HostStmt} (h : s.engine.AfterRounds referenceConfig.FTABLE decrypt key st n)
    (hhost : s.host = tickStmts ps ++ rest) (hrst : NoReset ps) (hn : n + ps.length ≤ 32) :
    ∃ t, steps ps.length s = .next t ∧ t.engine.AfterRounds referenceConfig.FTABLE decrypt key st (n + ps.length) ∧
      State.RanTicks ps s t ∧ t.host = rest := by
  induction ps generalizing n s with
  | nil => exact ⟨s, rfl, h, .nil s, hhost⟩
  | cons p ps ih =>
    rw [List.length_cons] at hn
    obtain ⟨u, first, next, ranFirst, hhost⟩ := step_tick_afterRounds h (by omega) hhost (hrst p List.mem_cons_self)
    obtain ⟨t, run, after, ran, left⟩ := ih next hhost (fun q hq => hrst q (List.mem_cons_of_mem p hq)) (by omega)
    refine ⟨t, (steps_succ_of_next first _).trans run, ?_, ranFirst.append ran, left⟩
    rw [List.length_cons, Nat.add_comm ps.length, ← Nat.add_assoc]
    exact after

/-- A start command in IDLE or DONE is accepted (R130, R131). -/
theorem step_accept {s : State} {p : PortIn} {rest : List HostStmt} {decrypt : Bool}
    (hs : s.engine.phase = .idle ∨ s.engine.phase = .done) (hhost : s.host = .tick p :: rest) (hrst : p.rst = false)
    (hcmd : p.cmd = if decrypt then 0b10 else 0b01) :
    step s = .next (accept decrypt ((s.withHost rest).withPorts p)) := by
  rw [step_tick_ready hhost hrst hs, hcmd]
  cases decrypt <;> rfl

/-- The key bytes of the port, listed, are the key that the accept step samples (20_memory.md R56). -/
theorem keyOfList_portBytes (k : KeyBits) :
    keyOfList ((List.range 10).map fun i => k.extractLsb' (72 - 8 * i) 8) = keyOfPort k := by
  ext1 i hi
  rw [getElem_keyOfList, getElem_keyOfPort]
  simp [hi]

/-- The words after all 32 rounds, joined, are the driver's block. -/
theorem driver_eq_wordsAfter (F : FTable) (decrypt : Bool) (b : Block) (k : KeyBits) :
    (let key := (List.range 10).map fun i => k.extractLsb' (72 - 8 * i) 8
     if decrypt then decryptBlock F b key else encryptBlock F b key) =
      .ok (joinBlock (wordsAfter F decrypt (keyOfPort k) (splitBlock b) 32)) := by
  have ten : ((List.range 10).map fun i => k.extractLsb' (72 - 8 * i) 8).length = 10 := rfl
  cases decrypt
  · exact (encryptBlock_of_length ten).trans (by rw [keyOfList_portBytes, wordsAfter_encrypt, encryptWith])
  · exact (decryptBlock_of_length ten).trans (by rw [keyOfList_portBytes, wordsAfter_decrypt, decryptWith])

theorem tickStmts_append (ps qs : List PortIn) : tickStmts (ps ++ qs) = tickStmts ps ++ tickStmts qs := List.map_append

/-- Settles O46: the accept step begins the operation and each tick after it runs one round; after 32 of them the words are
the driver's. -/
theorem operationTakesThirtyTwoRoundTicks : Obligations.OperationTakesThirtyTwoRoundTicks := by
  intro s p ps rest decrypt hs hhost hrst hcmd hlen hps
  have accepted := step_accept hs hhost hrst hcmd
  have begun := accept_afterRounds (F := referenceConfig.FTABLE) decrypt ((s.withHost (tickStmts ps ++ rest)).withPorts p)
  refine ⟨fun n hn => ?running, ?finished⟩
  case running =>
    have halves : tickStmts ps ++ rest = tickStmts (ps.take n) ++ (tickStmts (ps.drop n) ++ rest) := by
      rw [← List.append_assoc, ← tickStmts_append, List.take_append_drop]
    have count : (ps.take n).length = n := List.length_take_of_le (by omega)
    obtain ⟨t, run, after, -⟩ := steps_ticks_afterRounds begun halves
      (fun q hq => hps q (List.mem_of_mem_take hq)) (by omega)
    rw [count] at run after
    refine ⟨t, ?_, (after.running (by omega)).1⟩
    rw [Nat.add_comm, steps_succ_of_next accepted]
    exact run
  case finished =>
    obtain ⟨t, run, after, ran, left⟩ := steps_ticks_afterRounds begun rfl hps (by omega)
    rw [hlen] at run after
    have done := after.finished rfl
    refine ⟨t, (steps_succ_of_next accepted 32).trans run, done, ?_, (Engine.outputs_of_done done).2.2, ran.errIll,
      ran.errBusy, ran.faultMarks, left, ran.log⟩
    rw [after.w]
    exact driver_eq_wordsAfter _ _ _ _

/-- Settles O48: the accept step, and then the first round of the operation with CommandWhileBusy. -/
theorem heldCommandStartsThenIsBusy : Obligations.HeldCommandStartsThenIsBusy := by
  intro s p rest decrypt hs hhost hrst hcmd
  have accepted := step_accept hs hhost hrst hcmd
  have begun := accept_afterRounds (F := referenceConfig.FTABLE) decrypt
    ((s.withHost (.tick p :: rest)).withPorts p)
  obtain ⟨t, second, after, ran, left⟩ := step_tick_afterRounds begun (by decide) rfl hrst
  obtain ⟨phase, number⟩ := after.running (by decide)
  have run : steps 2 s = .next t := by rw [steps_succ_of_next accepted, steps_succ_of_next second, steps_zero]
  refine ⟨t, run, ran.errBusy.trans ?errBusy, ran.errIll.trans ?errIll, phase, after.dir, after.k,
    BitVec.toNat_inj.1 (number.trans ?rnd), after.w.trans ?words, ran.faultMarks.trans ?marks, left⟩
  case errBusy => cases decrypt <;> simp [hcmd]
  case errIll => cases decrypt <;> simp [hcmd]
  case rnd => cases decrypt <;> rfl
  case words => exact operationRound_first
  case marks => cases decrypt <;> simp [hcmd]

/-- Two engines that differ in their error bits at most. -/
structure Engine.SameOperation (e e' : Engine) : Prop where
  w : e.w = e'.w
  k : e.k = e'.k
  rnd : e.rnd = e'.rnd
  dir : e.dir = e'.dir
  phase : e.phase = e'.phase

theorem Engine.SameOperation.refl (e : Engine) : e.SameOperation e := ⟨rfl, rfl, rfl, rfl, rfl⟩

section
variable {c : Config} {s s' t t' : State}

/-- An accept leaves nothing of what the engines held (R131). -/
theorem accept_sameOperation (dir : Bool) (ports : s.ports = s'.ports) :
    (accept dir s).engine.SameOperation (accept dir s').engine := by
  constructor
  case w => rw [accept_engine_w, accept_engine_w, ports]
  case k => rw [accept_engine_k, accept_engine_k, ports]
  case rnd => rw [accept_engine_rnd, accept_engine_rnd]
  case dir => rw [accept_engine_dir, accept_engine_dir]
  case phase => rw [accept_engine_phase, accept_engine_phase]

/-- A round tick reads no error bit (R133). -/
theorem afterRunTick_sameOperation (F : FTable) (q : Cmd) {e e' : Engine} (same : e.SameOperation e') :
    (afterRunTick F q e).SameOperation (afterRunTick F q e') := by
  have sel : e.sel = e'.sel := by rw [Engine.sel, Engine.sel, same.dir, same.rnd]
  refine ⟨?_, same.k, ?_, same.dir, ?_⟩
  · rw [afterRunTick_w, afterRunTick_w, sel, same.rnd, same.k, same.w]
  · rw [afterRunTick_rnd, afterRunTick_rnd, same.rnd, same.dir]
  · rw [afterRunTick_phase, afterRunTick_phase, same.rnd, same.dir]

theorem tick_host (h : tick (execOf c) s = .next t) : t.host = s.host := by
  rcases tick_cases h with ⟨-, rfl⟩ | ⟨-, -, ⟨-, rfl⟩ | ⟨-, rfl⟩ | ⟨-, rfl⟩ | ⟨-, rfl⟩⟩ | ⟨-, -, -, rfl⟩ <;> rfl

/-- No tick tells two engines apart that differ in their error bits at most. -/
theorem tick_sameOperation (hs : s.Inv) (same : s.engine.SameOperation s'.engine) (ports : s.ports = s'.ports) :
    ∃ t t', tick (execOf c) s = .next t ∧ tick (execOf c) s' = .next t' ∧ t.engine.SameOperation t'.engine := by
  cases hr : s.ports.rst with
  | true => exact ⟨_, _, tick_reset hr, tick_reset (ports ▸ hr), .refl _⟩
  | false =>
    have hr' : s'.ports.rst = false := ports ▸ hr
    by_cases hrun : s.engine.phase = .run
    · refine ⟨_, _, (tick_run hr hrun).trans (if_pos hs.rnd),
        (tick_run hr' (same.phase ▸ hrun)).trans (if_pos (same.rnd ▸ hs.rnd)), ?_⟩
      rw [ports]
      exact afterRunTick_sameOperation _ _ same
    · have ready := Phase.ready_of_ne hs.phase hrun
      refine ⟨_, _, tick_ready hr ready, tick_ready hr' (same.phase ▸ ready), ?_⟩
      rw [← ports]
      rcases cmd_cases s.ports.cmd with hc | hc | hc | hc <;> rw [hc]
      · exact same
      · exact accept_sameOperation false ports
      · exact accept_sameOperation true ports
      · exact ⟨same.w, same.k, same.rnd, same.dir, same.phase⟩

/-- Nor do any number of ticks, resets among them. -/
theorem steps_ticks_sameOperation {ps : List PortIn} (hs : s.Inv) (same : s.engine.SameOperation s'.engine)
    (hhost : s.host = tickStmts ps) (hhost' : s'.host = tickStmts ps) :
    ∃ t t', steps ps.length s = .next t ∧ steps ps.length s' = .next t' ∧ t.engine.SameOperation t'.engine := by
  induction ps generalizing s s' with
  | nil => exact ⟨s, s', rfl, rfl, same⟩
  | cons p ps ih =>
    have present := step_of_nextPorts? (State.nextPorts?_of_tick hhost)
    have present' := step_of_nextPorts? (State.nextPorts?_of_tick hhost')
    obtain ⟨u, u', first, first', same⟩ := tick_sameOperation (c := referenceConfig) (s := s.presenting p)
      (s' := s'.presenting p) hs same rfl
    have left : u.host = tickStmts ps := by rw [tick_host first, State.presenting_host, hhost]; rfl
    have left' : u'.host = tickStmts ps := by rw [tick_host first', State.presenting_host, hhost']; rfl
    obtain ⟨t, t', run, run', same⟩ := ih (tick_legal (s := s.presenting p) hs first) same left left'
    exact ⟨t, t', (steps_succ_of_next (present.trans first) _).trans run,
      (steps_succ_of_next (present'.trans first') _).trans run', same⟩

end

/-- Settles O47: the accept leaves the two engines with the same operation, which no later tick tells apart. -/
theorem noResidueOfAnEarlierOperation : Obligations.NoResidueOfAnEarlierOperation := by
  intro s s' p ps hs hs' hhost hhost' hrst hcmd
  obtain ⟨decrypt, hcmd⟩ : ∃ decrypt : Bool, p.cmd = if decrypt then 0b10 else 0b01 :=
    hcmd.elim (fun enc => ⟨false, enc⟩) (fun dec => ⟨true, dec⟩)
  obtain ⟨t, t', run, run', same⟩ := steps_ticks_sameOperation (ps := ps) (accept_legal decrypt _)
    (accept_sameOperation (s := (s.withHost (tickStmts ps)).withPorts p) (s' := (s'.withHost (tickStmts ps)).withPorts p)
      decrypt rfl) rfl rfl
  exact ⟨t, t', (steps_succ_of_next (step_accept hs hhost hrst hcmd) _).trans run,
    (steps_succ_of_next (step_accept hs' hhost' hrst hcmd) _).trans run', same.w, same.k, same.rnd, same.dir, same.phase⟩

end Sys2Proof.Machine
end

section
/-! What a step runs (30_encoding.md R72, R77; 43_block_drivers.md R129): the round row of the schedule, the decoded command
or call, and what is refused instead. -/

namespace Sys2Proof.Machine

/-- Bit 3 of RND - 1 is 0 in the rounds of A and Ainv (30_encoding.md R72, R73). -/
theorem getLsbD_rnd_eq_false_iff {rnd : BitVec 6} (h : RoundInRange rnd.toNat) :
    (rnd - 1).getLsbD 3 = false ↔ 1 ≤ rnd.toNat ∧ rnd.toNat ≤ 8 ∨ 17 ≤ rnd.toNat ∧ rnd.toNat ≤ 24 := by
  revert rnd
  decide

/-- Bit 3 of RND - 1 is 1 in the rounds of B and Binv. -/
theorem getLsbD_rnd_eq_true_iff {rnd : BitVec 6} (h : RoundInRange rnd.toNat) :
    (rnd - 1).getLsbD 3 = true ↔ 9 ≤ rnd.toNat ∧ rnd.toNat ≤ 16 ∨ 25 ≤ rnd.toNat ∧ rnd.toNat ≤ 32 := by
  revert rnd
  decide

/-- Settles O5: the two ranges by bit 3 of RND - 1, the row by the select in each range and direction. -/
theorem roundSelectFollowsSchedule : Obligations.RoundSelectFollowsSchedule := by
  refine fun e h => ⟨rfl, getLsbD_rnd_eq_false_iff h, getLsbD_rnd_eq_true_iff h, ?row⟩
  have range := roundInRange_iff.1 h
  have listed : e.rnd.toNat ∈ List.range' 1 8 ++ List.range' 17 8 ↔
      1 ≤ e.rnd.toNat ∧ e.rnd.toNat ≤ 8 ∨ 17 ≤ e.rnd.toNat ∧ e.rnd.toNat ≤ 24 := by
    rw [List.mem_append, List.mem_range'_1, List.mem_range'_1]
    omega
  by_cases hA : 1 ≤ e.rnd.toNat ∧ e.rnd.toNat ≤ 8 ∨ 17 ≤ e.rnd.toNat ∧ e.rnd.toNat ≤ 24
  · rw [if_pos (listed.2 hA), Engine.sel_of_roundsA hA]
    cases e.dir <;> rfl
  · rw [if_neg (mt listed.1 hA), Engine.sel_of_roundsB (by omega)]
    cases e.dir <;> rfl

section
variable {run : Instr → State → Result} {s : State} {i : Instr}

/-- A tick without reset outside RUN is its command. -/
theorem tick_of_ne_run (hr : s.ports.rst = false) (hp : s.engine.phase ≠ .run) :
    tick run s = execWord run (cmdWord s.ports.cmd) s := by
  simp only [tick, hr, Bool.false_eq_true, if_false]
  cases h : s.engine.phase with
  | run => exact absurd h hp
  | idle | done | unassigned => cases execWord run (cmdWord s.ports.cmd) s <;> rfl

/-- A tick without reset in RUN is its command and then the selected round row. -/
theorem tick_of_run (hr : s.ports.rst = false) (hp : s.engine.phase = .run) :
    tick run s = andThen (execWord run (cmdWord s.ports.cmd) s) (execWord run (selWord s.engine.sel)) := by
  simp only [tick, hr, hp, Bool.false_eq_true, if_false]

theorem call_of_decode {w : InstrWord} (h : decode w = .ok i) (hc : i.isCall = true) : call run w s = run i s := by
  simp only [call, h, hc, if_true]

theorem call_of_tick_only {w : InstrWord} (h : decode w = .ok i) (hc : i.isCall = false) :
    call run w s = .refused .notCallable := by
  simp only [call, h, hc, Bool.false_eq_true, if_false]

theorem call_of_error {w : InstrWord} {e : DecodeError} (h : decode w = .error e) :
    call run w s = .refused (.undecodable e) := by
  simp only [call, h]

end

section
variable {s : State} {p : PortIn} {rest : List HostStmt} {i : Instr}

/-- A step that presents a command outside RUN runs what the command decodes to. -/
theorem step_tick_of_decode (hhost : s.host = .tick p :: rest) (hr : p.rst = false) (hi : decode (cmdWord p.cmd) = .ok i)
    (hp : s.engine.phase ≠ .run) : step s = exec i ((s.withHost rest).withPorts p) := by
  rw [step_tick hhost, execOf_referenceConfig]
  exact (tick_of_ne_run (s := (s.withHost rest).withPorts p) hr hp).trans (execWord_of_decode hi _)

/-- In RUN it runs the selected round row after it. -/
theorem step_tick_run_of_decode {j : Instr} (hhost : s.host = .tick p :: rest) (hr : p.rst = false)
    (hi : decode (cmdWord p.cmd) = .ok i) (hp : s.engine.phase = .run) (hj : decode (selWord s.engine.sel) = .ok j) :
    step s = andThen (exec i ((s.withHost rest).withPorts p)) (exec j) := by
  have row : execWord exec (selWord s.engine.sel) = exec j := funext (execWord_of_decode hj)
  rw [step_tick hhost, execOf_referenceConfig, ← row, ← execWord_of_decode (run := exec) hi]
  exact tick_of_run (s := (s.withHost rest).withPorts p) hr hp

/-- A step that calls a function runs it. -/
theorem step_call_of_decode {w : InstrWord} (hhost : s.host = .call w :: rest) (hi : decode w = .ok i)
    (hc : i.isCall = true) : step s = exec i (s.withHost rest) := by
  rw [step_call hhost, execOf_referenceConfig, call_of_decode hi hc]

end

/-- Settles O6: a tick outside RUN and in RUN, a call, and the idle tick. -/
theorem stepRunsTheDecodedInstruction : Obligations.StepRunsTheDecodedInstruction := by
  refine fun s => ⟨fun p rest i hhost hr hi => ⟨step_tick_of_decode hhost hr hi, fun j => step_tick_run_of_decode hhost hr hi⟩,
    fun w rest i => step_call_of_decode, fun hhost => ?idle⟩
  rw [step_idle hhost, step_tick (p := idlePorts s.ports) (rest := []) rfl, State.withHost_withHost, ← hhost,
    State.withHost_self]

theorem decode_of_decodeTableWord {n w : Nat} {i : Instr} (h : decodeTableWord n w = some i) :
    w < 2 ^ 8 ∧ decode (tableWord w) = .ok i := by
  unfold decodeTableWord at h
  split at h
  case isTrue bounds =>
    split at h
    · cases h; exact ⟨bounds.2, ‹_›⟩
    · cases h
  case isFalse => cases h

/-- A table word below 4 is a word on port `cmd`. -/
theorem tableWord_of_lt {w : Nat} (h : w < 4) : tableWord w = cmdWord (BitVec.ofNat 2 w) := by
  interval_cases w <;> rfl

/-- From 4 on, only JOIN's label has a function (30_encoding.md R76, R78). -/
theorem isCall_of_decode_tableWord {w : Nat} {i : Instr} (h : 4 ≤ w) (hw : w < 2 ^ 8) (hi : decode (tableWord w) = .ok i) :
    i.isCall = true := by
  rw [tableWord, if_neg (Nat.not_lt.2 h)] at hi
  have label : w = 4 := by
    by_contra hne
    have five : 5 ≤ (BitVec.ofNat 8 w).toNat := by rw [BitVec.toNat_ofNat, Nat.mod_eq_of_lt hw]; omega
    rw [(unassignedCodesAreRejected _ _).1 five] at hi
    cases hi
  subst label
  cases hi
  rfl

theorem State.withFetchWord_host {s : State} {w : Nat} (hw : w < 2 ^ 8) :
    (s.withFetchWord 8 w).host = stmtOfTableWord s.ports w :: s.host := by
  rw [State.withFetchWord, State.withHost_host, Nat.mod_eq_of_lt hw]

/-- The statement taken, the state is the one before the load. -/
theorem State.withFetchWord_withHost (s : State) (w : Nat) : (s.withFetchWord 8 w).withHost s.host = s := rfl

/-- Settles O7: a word below 4 is placed as a tick and any other as a call, and each runs what the word decodes to. -/
theorem placedWordIsWhatStepRuns : Obligations.PlacedWordIsWhatStepRuns := by
  intro s w i hp h
  obtain ⟨hw, hi⟩ := decode_of_decodeTableWord h
  have placed := State.withFetchWord_host (s := s) hw
  refine ⟨{ s.ports with rst := false, cmd := BitVec.ofNat 2 w }, rfl, rfl, rfl, rfl, fun lt => ?command, fun ge => ?label⟩
  case command =>
    rw [stmtOfTableWord, if_pos lt] at placed
    rw [tableWord_of_lt lt] at hi
    rw [step_tick_of_decode placed rfl hi hp, State.withFetchWord_withHost]
  case label =>
    rw [stmtOfTableWord, if_neg (Nat.not_lt.2 ge), if_pos hw] at placed
    rw [step_call_of_decode placed hi (isCall_of_decode_tableWord ge hw hi), State.withFetchWord_withHost]

/-- Settles O57: the two refusals of a call. -/
theorem onlyFunctionsAreCallable : Obligations.OnlyFunctionsAreCallable := by
  refine fun s w rest hhost => ⟨fun i hi hc => ?tickOnly, fun e he => ?undecodable⟩
  case tickOnly => rw [step_call hhost, call_of_tick_only hi hc]
  case undecodable => rw [step_call hhost, call_of_error he]

/-- A round tick with PHASE assigned and RND in range is refused for the row exactly where the state does not select it. -/
theorem roundTick_eq_roundNotSelected {s : State} (sel : Sel) (rule : Nat → Key → Words → Words)
    (ha : s.engine.phase ≠ .unassigned) (hr : RoundInRange s.engine.rnd.toNat) :
    roundTick sel rule s = .refused .roundNotSelected ↔ s.engine.phase ≠ .run ∨ s.engine.sel ≠ sel := by
  unfold roundTick
  cases hp : s.engine.phase with
  | unassigned => exact absurd hp ha
  | idle | done => simp
  | run =>
    simp only [if_pos hr]
    by_cases hs : s.engine.sel = sel <;> simp [hs]

/-- Settles O35: each row in its tick form is the round tick of its own select. -/
theorem roundRowRunsOnlyWhenSelected : Obligations.RoundRowRunsOnlyWhenSelected := by
  intro s ha hr
  have refused := fun sel rule => roundTick_eq_roundNotSelected sel rule ha hr
  exact ⟨refused _ _, refused _ _, refused _ _, refused _ _⟩

/-- Settles O8: the reset engine's fields. -/
theorem resetControlStateAndOutputs : Obligations.ResetControlStateAndOutputs :=
  ⟨rfl, rfl, rfl, rfl, rfl, rfl, rfl⟩

/-- Settles O10: a reset tick leaves the reset engine and nothing else of it, in every phase. -/
theorem resetTickFromAnyState : Obligations.ResetTickFromAnyState :=
  fun _ _ _ hhost hr => ⟨_, step_tick_reset hhost hr, rfl, rfl, rfl, rfl, rfl, rfl, rfl, rfl, rfl⟩

end Sys2Proof.Machine
end

section
/-! FTABLE as a parameter (00_scope.md R9): the published table (40_fbox.md R90 to R92), the function-level forms with any
table, and how far another table reaches at a tick. -/

namespace Sys2Proof.Machine

/-- Settles O22: the 256 entries, evaluated. -/
theorem fBoxIsThePublishedTable : Obligations.FBoxIsThePublishedTable := ⟨rfl, by decide +kernel⟩

/-- The inverse of the published table, row by row as `fTableRows`: the certificate that every output occurs. -/
def fTableInverseRows : List (BitVec 128) :=
  [0x69fb22aec1fc658ae002205dd0a5ce43,
   0xdee228f3c40a3d248f374a47b27f1b93,
   0x7709c6c2e6f5ac881fc8fea6a311174e,
   0x929ee864b060e9d61d40fab7852ebd54,
   0xaf5580871e68ff7d05847eb115121ce5,
   0xa8c5182faa506bf459fd58be9d9cf05b,
   0x26a2db35ab665c8e27673e32f16c83d5,
   0xa0cad3b399d46fe10bc92a4238adcbba] ++
  [0x5a46a9033153dda7a19013dccd94da96,
   0x5f4de4456a1930706d0c366ec3ea82a4,
   0x23d73f009fbfed63f9f297bbefc0390e,
   0x740d720849f641294f5133eed2f8e356,
   0x6244732bb5e7958d989b1691b88614eb,
   0x4cb489d98b617a015e1a52769a7c8c21,
   0x5778cff77b3abc10df2c4b79d88148d1,
   0xc72534ec073b063c040f2db971b675cc]

/-- The input that the published table maps to `y`. -/
def fTableInverse (y : Byte) : Byte :=
  (fTableInverseRows.getD (y.extractLsb' 4 4).toNat 0).extractLsb' (8 * (15 - (y.extractLsb' 0 4).toNat)) 8

theorem fTable_fTableInverse : ∀ y : Byte, fTable (fTableInverse y) = y := by decide

/-- On the finitely many bytes, a table with every output maps no two inputs to the same one (R92). -/
theorem fTable_bijective : Function.Bijective fTable :=
  have surjective : Function.Surjective fTable := fun y => ⟨_, fTable_fTableInverse y⟩
  ⟨Finite.injective_iff_surjective.2 surjective, surjective⟩

theorem fTable_eq_zero_iff : ∀ x : Byte, fTable x = 0x00 ↔ x = 0x69 := by decide

theorem fTable_ne_self : ∀ x : Byte, fTable x ≠ x := by decide

theorem execOf_f {c : Config} {x : Byte} {s : State} :
    execOf c (.f x) s = .next (s.observe (.returned (.byte (c.FTABLE x)))) := rfl

/-- Settles O21: the lookup returns the entry of the configured table; the corner cases are those of the published one. -/
theorem fBoxLookupAndCornerCases : Obligations.FBoxLookupAndCornerCases := by
  refine ⟨fun x s => rfl, fun c x s => execOf_f, fun x => rfl, fun c published => ?corners⟩
  have lookup : fBox c.FTABLE = fTable := published
  rw [lookup]
  exact ⟨by decide, by decide, by decide, fTable_eq_zero_iff, fTable_ne_self⟩

/-- Settles O23: the published table is a bijection, and F returns the configured table's entry. -/
theorem fBoxIsABijection : Obligations.FBoxIsABijection := by
  refine ⟨fTable_bijective, fun c ⟨injective, surjective⟩ s => ⟨fun x y h => injective ?same, fun v => ?occurs⟩⟩
  case same =>
    rw [execOf_f, execOf_f] at h
    simpa [State.ext_iff] using h
  case occurs =>
    obtain ⟨x, rfl⟩ := surjective v
    exact ⟨x, execOf_f⟩

theorem execOf_enc_call_of_length {c : Config} {b : Block} {key : List Byte} {s : State} (h : key.length = 10) :
    execOf c (.enc (.call b key)) s = .next (s.observe (.returned (.block (encryptWith c.FTABLE b (keyOfList key))))) := by
  change returnDriver (encryptBlock c.FTABLE b key) s = _
  rw [encryptBlock_of_length h]
  rfl

theorem execOf_dec_call_of_length {c : Config} {b : Block} {key : List Byte} {s : State} (h : key.length = 10) :
    execOf c (.dec (.call b key)) s = .next (s.observe (.returned (.block (decryptWith c.FTABLE b (keyOfList key))))) := by
  change returnDriver (decryptBlock c.FTABLE b key) s = _
  rw [decryptBlock_of_length h]
  rfl

/-- Settles O24: each row's value is a function of the configured table, and the table is all that a configuration gives to
an instruction. -/
theorem fTableIsAParameter : Obligations.FTableIsAParameter := by
  refine ⟨fun c s b key h => ⟨⟨_, encryptBlock_of_length h, execOf_enc_call_of_length h⟩,
      ⟨_, decryptBlock_of_length h, execOf_dec_call_of_length h⟩⟩,
    fun c s r k w st hr => ⟨inRound_of_inRange hr, inRound_of_inRange hr, inRound_of_inRange hr, inRound_of_inRange hr,
      inRound_of_inRange hr, inRound_of_inRange hr⟩, fun c published => ?published⟩
  have same : execOf c = exec := (execOf_congr (c' := referenceConfig) published).trans execOf_referenceConfig
  exact ⟨fun i s => by rw [same], fun s => by rw [stepOf, same, step]⟩

/-- A tick goes the same way with every table: only the words after a round tick tell the configurations apart. -/
theorem tick_of_another_table {c c' : Config} {s t : State} (h : tick (execOf c) s = .next t) :
    ∃ u, tick (execOf c') s = .next u ∧ u = t.withEngine { t.engine with w := u.engine.w } ∧
      (s.engine.phase = .run → s.ports.rst = false →
        u.engine.w = selectedRule c'.FTABLE s.engine.sel s.engine.rnd.toNat s.engine.k s.engine.w) := by
  cases hr : s.ports.rst with
  | true =>
    rw [tick_reset hr] at h ⊢
    cases h
    exact ⟨_, rfl, rfl, nofun⟩
  | false =>
    cases hp : s.engine.phase with
    | idle | done =>
      have ready : s.engine.phase = .idle ∨ s.engine.phase = .done := by simp [hp]
      rw [tick_ready hr ready] at h ⊢
      cases h
      exact ⟨_, rfl, rfl, nofun⟩
    | unassigned =>
      rw [tick_unassigned hr hp] at h
      cases h
    | run =>
      rw [tick_run hr hp] at h ⊢
      split at h
      case isTrue inRange =>
        cases h
        exact ⟨_, if_pos inRange, rfl, fun _ _ => rfl⟩
      case isFalse => cases h

/-- Settles O25: a step that presents ports is their tick. -/
theorem fTableReachesOnlyTheWords : Obligations.FTableReachesOnlyTheWords := by
  rintro c s t h ⟨p, hp⟩
  rw [step_of_nextPorts? hp] at h
  obtain ⟨u, hu, frame, words⟩ := tick_of_another_table (c' := c) h
  refine ⟨u, (stepOf_of_nextPorts? hp).trans hu, frame, fun hrun noReset => (words hrun ?_).trans ?_⟩
  · exact (State.nextIsReset_of_nextPorts? hp).symm.trans noReset
  · rw [State.presenting_engine]
    rcases cmd_cases s.engine.sel with h | h | h | h <;> rw [h] <;> rfl

/-- `f` answers alike in every state: with one value for its caller, or with a stop that no state decides. -/
inductive ReadsNoState (f : State → Result) : Prop
  | returns (v : Value) (h : ∀ s, f s = .next (s.observe (.returned v)))
  | keyLength (n : Nat) (h : ∀ s, f s = .fault (.invalidKeyLength n))
  | outOfRange (r : Nat) (h : ∀ s, f s = .refused (.roundOutOfRange r))

theorem inRound_readsNoState (r : Nat) (v : Value) : ReadsNoState (inRound r v) := by
  by_cases h : RoundInRange r
  · exact .returns v fun _ => inRound_of_inRange h
  · exact .outOfRange r fun _ => inRound_of_not_inRange h

theorem returnDriver_readsNoState {v : Except ErrorCause Block}
    (hv : ∀ c, v = .error c → ∃ n, c = .invalidKeyLength n) : ReadsNoState (returnDriver v) := by
  cases v with
  | ok b => exact .returns (.block b) fun _ => rfl
  | error c =>
    obtain ⟨n, rfl⟩ := hv c rfl
    exact .keyLength n fun _ => rfl

/-- The function-level forms are functions of their operands and the table only (00_scope.md R16). -/
theorem execOf_readsNoState {c : Config} {i : Instr} (hc : i.isCall = true) : ReadsNoState (execOf c i) := by
  cases i with
  | nop | reserved => cases hc
  | enc form =>
    cases form with
    | ports => cases hc
    | call b key => exact returnDriver_readsNoState fun _ h => ⟨_, encryptBlock_error h⟩
  | dec form =>
    cases form with
    | ports => cases hc
    | call b key => exact returnDriver_readsNoState fun _ h => ⟨_, decryptBlock_error h⟩
  | roundA form | roundB form | roundAinv form | roundBinv form =>
    cases form with
    | engine => cases hc
    | call r key st => exact inRound_readsNoState r _
  | f x => exact .returns _ fun _ => rfl
  | g r key w | ginv r key w => exact inRound_readsNoState r _
  | split b => exact .returns _ fun _ => rfl
  | join st => exact .returns _ fun _ => rfl

theorem exec_readsNoState {i : Instr} (hc : i.isCall = true) : ReadsNoState (exec i) :=
  execOf_referenceConfig ▸ execOf_readsNoState (c := referenceConfig) hc

/-- Settles O55: a form that completes in one state answers its value in every state. -/
theorem functionCallsChangeNoRegister : Obligations.FunctionCallsChangeNoRegister := by
  intro i s t hc h
  cases exec_readsNoState hc with
  | returns v answer =>
    rw [answer] at h
    cases h
    exact ⟨v, rfl, answer⟩
  | keyLength n answer => rw [answer] at h; cases h
  | outOfRange r answer => rw [answer] at h; cases h

end Sys2Proof.Machine
end

section
/-! What the host reads (10_state.md R31, R32), the stuck PHASE 11 (10_state.md R26), and several engines beside each
other (20_memory.md R62, 60_exceptions.md R162). -/

namespace Sys2Proof.Machine

section
variable {s : State} {rest : List HostStmt}

/-- A read of BLOCK_OUT in DONE gives the result (R31). -/
theorem step_read_blockOut_of_done (hhost : s.host = .read .blockOut :: rest) (hp : s.engine.phase = .done) :
    step s = .next ((s.withHost rest).observe (.blockOut (joinBlock s.engine.w))) := by
  rw [step_read hhost, readReg, readBlockOut, State.withHost_engine, hp]

/-- In IDLE and RUN it draws a free value (R31). -/
theorem step_read_blockOut_of_not_done (hhost : s.host = .read .blockOut :: rest)
    (hp : s.engine.phase = .idle ∨ s.engine.phase = .run) :
    step s = .next ((s.withHost rest).observe (.blockOut (s.withHost rest).freeBlockOut)).countFreeRead := by
  rw [step_read hhost, readReg, readBlockOut, State.withHost_engine]
  rcases hp with hp | hp <;> rw [hp]

end

/-- Settles O49: the result in DONE, where a read leaves the engine in DONE for the next, and a free value otherwise. -/
theorem blockOutReads : Obligations.BlockOutReads := by
  refine fun s rest hhost => ⟨fun hp => ?done, fun hp => ?free⟩
  case done =>
    have first := step_read_blockOut_of_done hhost hp
    refine ⟨first, fun t ht rest' hrest => ?_⟩
    rw [first] at ht
    cases ht
    exact ⟨_, step_read_blockOut_of_done (s := (s.withHost rest).observe _) hrest hp, rfl, rfl⟩
  case free => exact ⟨_, step_read_blockOut_of_not_done hhost hp, rfl, rfl, rfl, rfl, rfl, rfl⟩

theorem readReg_of_write {reg : HostReg} {s : State} (h : regAccess reg = .write) :
    readReg reg s = .refused (.registerNotReadable reg) := by
  cases reg with
  | cmd | blockIn | keyIn => rfl
  | blockOut | status => cases h

/-- Settles O51: the table's columns, the two flags of one PHASE, and the refused reads. -/
theorem hostRegistersAndAccess : Obligations.HostRegistersAndAccess := by
  refine ⟨rfl, fun e ⟨busy, done⟩ => ?exclusive, fun s reg rest hhost hw => ?refused⟩
  case exclusive =>
    rw [Engine.getLsbD_status] at busy done
    have run := e.busy_eq_true_iff.1 busy
    rw [e.done_eq_true_iff.1 done] at run
    cases run
  case refused => rw [step_read hhost, readReg_of_write hw]

theorem readReg_of_unassigned {reg : HostReg} {s : State} (hp : s.engine.phase = .unassigned)
    (h : regAccess reg = .readOnly) : readReg reg s = .fault .stuckPhase := by
  cases reg with
  | cmd | blockIn | keyIn => cases h
  | blockOut => rw [readReg, readBlockOut, hp]
  | status => rw [readReg, readStatus, hp]

/-- A call never stops for PHASE, which it does not read. -/
theorem call_ne_stuckPhase {c : Config} (w : InstrWord) (s : State) : call (execOf c) w s ≠ .fault .stuckPhase := by
  cases hd : decode w with
  | error e => rw [call_of_error hd]; nofun
  | ok i =>
    cases hc : i.isCall with
    | false => rw [call_of_tick_only hd hc]; nofun
    | true =>
      rw [call_of_decode hd hc]
      cases execOf_readsNoState (c := c) hc with
      | returns v answer | keyLength v answer | outOfRange v answer => rw [answer]; nofun

/-- No tick makes PHASE 11. -/
theorem tick_phase_ne_unassigned {c : Config} {s t : State} (h : tick (execOf c) s = .next t) :
    t.engine.phase ≠ .unassigned := by
  rcases tick_cases h with ⟨-, rfl⟩ | ⟨-, ready, command⟩ | ⟨-, -, hr, rfl⟩
  · nofun
  · have assigned : s.engine.phase ≠ .unassigned := by rcases ready with hp | hp <;> rw [hp] <;> nofun
    rcases command with ⟨-, rfl⟩ | ⟨-, rfl⟩ | ⟨-, rfl⟩ | ⟨-, rfl⟩
    · exact assigned
    · nofun
    · nofun
    · exact assigned
  · exact (afterRunTick_legal _ _ hr).phase

/-- Settles O56: ticks and reads are stuck, calls read no PHASE, and no tick makes PHASE 11. -/
theorem unassignedPhaseIsStuck : Obligations.UnassignedPhaseIsStuck := by
  refine ⟨fun s p hp hports hr => ?tick, fun s reg rest hp hread hhost => ?read, fun s p hp hports hr => ?reset,
    fun s w rest hp hhost => ⟨?call, fun t h => ?frame⟩, fun s t h ht => ?made⟩
  case tick =>
    rw [step_of_nextPorts? hports]
    exact tick_unassigned (s := s.presenting p) hr hp
  case read =>
    rw [step_read hhost]
    exact readReg_of_unassigned (s := s.withHost rest) hp hread
  case reset =>
    rw [step_of_nextPorts? hports]
    exact ⟨_, tick_reset (s := s.presenting p) hr, rfl⟩
  case call =>
    rw [step_call hhost]
    exact call_ne_stuckPhase w _
  case frame =>
    rw [step_call hhost] at h
    obtain ⟨v, rfl⟩ := call_cases h
    exact ⟨rfl, rfl⟩
  case made =>
    rcases step_tick_or_frame h with ⟨p, -, htick⟩ | ⟨-, engine, -⟩
    · exact absurd ht (tick_phase_ne_unassigned htick)
    · rwa [engine] at ht

/-- Going on twice is going on once with both. -/
theorem andThen_andThen (o : Result) (f g : State → Result) : andThen (andThen o f) g = andThen o fun s => andThen (f s) g := by
  cases o <;> rfl

theorem andThen_stepsOf_zero (c : Config) (o : Result) : andThen o (stepsOf c 0) = o := by
  cases o <;> rfl

/-- One step and then `n` are `n + 1`. -/
theorem andThen_stepOf_stepsOf (c : Config) (o : Result) (n : Nat) :
    andThen (andThen o (stepOf c)) (stepsOf c n) = andThen o (stepsOf c (n + 1)) := andThen_andThen ..

/-- The engine that steps is the one named; any other stays as it is. -/
theorem systemStep_getElem? (c : Config) (j : Nat) (sys : System) (k : Nat) :
    (systemStep c j sys)[k]? = if j = k then sys[k]?.map fun o => andThen o (stepOf c) else sys[k]? := by
  rw [systemStep, List.getElem?_modify]
  split_ifs <;> simp

/-- Settles O58, by induction on the schedule: its first step is the engine's own or leaves the engine alone. -/
theorem instancesDoNotInterfere : Obligations.InstancesDoNotInterfere := by
  intro c schedule sys k
  induction schedule generalizing sys with
  | nil => simp only [systemRun, List.count_nil, andThen_stepsOf_zero, Option.map_id']
  | cons j ks ih =>
    rw [systemRun, ih, systemStep_getElem?]
    by_cases own : j = k
    · rw [if_pos own, own, List.count_cons_self, Option.map_map]
      simp only [Function.comp_def, andThen_stepOf_stepsOf]
    · rw [if_neg own, List.count_cons_of_ne own]

theorem systemReset_getElem? {c : Config} {k : Nat} (h : k < c.N_INSTANCES) :
    (systemReset c)[k]? = some (.next (instanceReset k)) := by
  simp [systemReset, h]

theorem length_systemReset (c : Config) : (systemReset c).length = c.N_INSTANCES := by
  simp [systemReset]

/-- Settles O59: the system is listed by number, each engine in its own reset state. -/
theorem instancesStartAfterTheirOwnReset : Obligations.InstancesStartAfterTheirOwnReset := by
  refine ⟨length_systemReset referenceConfig, fun c => ⟨?atLeastOne, length_systemReset c, fun k hk =>
    ⟨instanceReset k, systemReset_getElem? hk, rfl, rfl, rfl, rfl, rfl, rfl⟩⟩⟩
  rw [length_systemReset]
  exact c.oneOrMore

end Sys2Proof.Machine
end
